-- ==== Sys2Proof/Word.lean ====
section
/-! DEFINITION. The two word widths of the machine and their plainest conversions. -/

namespace Sys2Proof

/-- A data word: a register, a memory word, a latch buffer (`XLEN = 8`, R4). -/
abbrev Byte := BitVec 8

/-- The width of `pc` and `mar` (`PC_WIDTH = 16`, R4). -/
abbrev Addr16 := BitVec 16

/-- `zext_16` (00_scope.md section 5): a byte widened with zeros. -/
abbrev zext16 (v : Byte) : Addr16 := v.setWidth 16

end Sys2Proof
end

