-- ==== Sys2Proof/Machine/Memory.lean ====
section
/-! DEFINITION. The memory array as plain data: a list of address and byte pairs in one canonical form
(addresses strictly rising, no entry equal to what an unlisted address reads as). -/

namespace Sys2Proof.Machine

/-- The memory array (R21). -/
abbrev Memory := List Host.Cell

/-- DESIGN CHOICE, unsafe (log entry 1): what an address that no entry lists reads as. The manual
makes the image total (R25, R221) and fixes none of its words. -/
def unlistedByte : Byte := 0x00

/-- `mem[a]`. -/
def Memory.read : Memory → Nat → Byte
  | [], _ => unlistedByte
  | (k, v) :: m, a => if k = a then v else Memory.read m a

/-- An entry in front of the rest of a memory, left out where it says what an unlisted address reads as. -/
def Memory.push (a : Nat) (v : Byte) (m : Memory) : Memory :=
  if v = unlistedByte then m else (a, v) :: m

/-- `mem[a] <- v`, keeping the canonical form. -/
def Memory.write : Memory → Nat → Byte → Memory
  | [], a, v => Memory.push a v []
  | (k, w) :: m, a, v =>
    if a < k then Memory.push a v ((k, w) :: m)
    else if a = k then Memory.push a v m
    else (k, w) :: Memory.write m a v

/-- The canonical form, for a memory whose addresses are `lo` or more. -/
def Memory.wfFrom : Nat → Memory → Bool
  | _, [] => true
  | lo, (k, v) :: m => decide (lo ≤ k) && decide (v ≠ unlistedByte) && Memory.wfFrom (k + 1) m

/-- The canonical form: addresses strictly rising, no entry equal to `unlistedByte`. -/
def Memory.wf (m : Memory) : Bool := Memory.wfFrom 0 m

/-- Every listed address exists in a memory of `n` words. -/
def Memory.within (n : Nat) (m : Memory) : Bool := m.all fun c => decide (c.1 < n)

/-- A memory from the bytes of an image, the first at address `a`. -/
def Memory.ofBytes : Nat → List Byte → Memory
  | _, [] => []
  | a, v :: vs => Memory.push a v (Memory.ofBytes (a + 1) vs)

/-- The memory that a reset installs (R220, R221): the image's byte at every address below `n`.
DESIGN CHOICE (log entry 27): bytes past `n` are dropped, and words a short image does not give read
as `unlistedByte`; an image of exactly `n` bytes is the total image of R221. -/
def Memory.ofImage (n : Nat) (image : List Byte) : Memory := Memory.ofBytes 0 (image.take n)

end Sys2Proof.Machine
end

