-- ==== Sys2Proof/Config.lean ====
section
/-! DEFINITION. The parameters that R4 leaves OPEN: their types and their legal range.
The default values stand in Machine/Parameters.lean. The manual leaves no value undefined after an
instruction, so this file holds no opaque free value. -/

namespace Sys2Proof

/-- The two values of the parameter `ROR_FILL` (R129): what a rotate to the right puts into bit 7. -/
inductive RorFill where
  /-- The bit shifted out (the default). -/
  | bit0
  /-- The carry as it was before the step. -/
  | oldCf
deriving DecidableEq, Repr

/-- The sixteen branch predicates of R141, under the source's names for them. -/
inductive Predicate where
  | unconditional
  | notZero
  | notNegative
  /-- "positive": negative and zero both clear. -/
  | positive
  | inputNotReady
  | notCarry
  | signedGreaterOrEqual
  | signedGreater
  /-- The sixteenth predicate, which the source does not name (decision D3). -/
  | overflow
  | zero
  | negative
  | zeroOrNegative
  | outputReady
  | carry
  | signedLess
  | signedLessOrEqual
deriving DecidableEq, Repr

/-- `CC_TABLE`: a predicate for each of the sixteen condition codes (R4, R57). -/
abbrev CcTable := Vector Predicate 16

/-- The parameters of R4 that a model may vary. They are fixed for a machine: no instruction and no
action of the environment changes them. -/
structure Params where
  /-- `MEM_SIZE`: addresses run from 0 to `memSize - 1`. -/
  memSize : Nat
  /-- `ROR_FILL`. -/
  rorFill : RorFill
  /-- `CC_TABLE`. -/
  ccTable : CcTable
deriving DecidableEq, Repr

/-- The range R4 allows: `0x200 <= MEM_SIZE <= 0x10000`. The other two parameters are free. -/
def Params.legal (p : Params) : Bool :=
  decide (0x200 ≤ p.memSize) && decide (p.memSize ≤ 0x10000)

end Sys2Proof
end

