-- ==== Sys2Proof/Machine/Parameters.lean ====
section
/-! DEFINITION. The default values of the parameters of R4: the values of this hardware. -/

namespace Sys2Proof.Machine

/-- `MEM_SIZE` of this hardware (decision D9; log entry 6). -/
def defaultMemSize : Nat := 0x200

/-- `ROR_FILL` of this hardware (R129, decision D4; log entry 8). -/
def defaultRorFill : RorFill := .bit0

/-- PRESUMED (the numbers and the sixteenth predicate): `CC_TABLE` of this hardware, the table of R141
(decision D3; log entry 7). -/
def defaultCcTable : CcTable := #v[
  .unconditional, .notZero, .notNegative, .positive,
  .inputNotReady, .notCarry, .signedGreaterOrEqual, .signedGreater,
  .overflow, .zero, .negative, .zeroOrNegative,
  .outputReady, .carry, .signedLess, .signedLessOrEqual]

/-- The parameters of this hardware (R4). -/
def defaultParams : Params :=
  { memSize := defaultMemSize, rorFill := defaultRorFill, ccTable := defaultCcTable }

end Sys2Proof.Machine
end

