-- ==== Sys2Proof/Syntax.lean ====
section
/-! DEFINITION. The instruction set: one constructor for each row of spec/opcode_table.json.
A term holds every bit of its words: the fields of the first word, the bits the decode ignores
(R59), and the second word where R58 gives the instruction one. -/

namespace Sys2Proof

/-- The operand-A selector, bit 3 of the first word (R54): 0 is the accumulator, 1 the index register. -/
inductive RegSel where
  | acc
  | ix
deriving DecidableEq, Repr

/-- The four memory modes of operand B (R55, R75). -/
inductive MemMode where
  /-- Mode 4, text absolute. -/
  | absText
  /-- Mode 5, data absolute. -/
  | absData
  /-- Mode 6, text indexed. -/
  | ixText
  /-- Mode 7, data indexed. -/
  | ixData
deriving DecidableEq, Repr

/-- Operand B of an instruction that reads it (R55), with its second word `d` where the mode has one. -/
inductive OperandB where
  /-- `b = 0`. -/
  | acc
  /-- `b = 1`. -/
  | ix
  /-- Immediate: `b = 2`, or `b = 3` where `isAlias` is true; the two behave alike (R55). -/
  | imm (isAlias : Bool) (d : Byte)
  /-- `b` from 4 to 7. -/
  | mem (m : MemMode) (d : Byte)
deriving DecidableEq, Repr

/-- The instructions. `x` stands for bits that the decode does not test, `a` for the operand-A
selector, `b` for operand B or its mode field, `d` for a second word, `t` for a branch or call target. -/
inductive Instr where
  /-- NOP, R180. -/
  | nop (x : BitVec 3)
  /-- HLT in the first words 0x08 and 0x09, R181. -/
  | hlt (x : BitVec 1)
  /-- JAL, R170. -/
  | jal (t : Byte)
  /-- JR, R171. -/
  | jr
  /-- HLT in the first words 0x0C to 0x0F, R181: the table's second row for HLT. -/
  | hltHigh (x : BitVec 2)
  /-- OUT, R182. -/
  | out (x : BitVec 3)
  /-- IN, R183. -/
  | inp (x : BitVec 3)
  /-- RCF, R184. -/
  | rcf (x : BitVec 3)
  /-- SCF, R185. -/
  | scf (x : BitVec 3)
  /-- BA, R142. -/
  | ba (t : Byte)
  /-- BNZ, R143. -/
  | bnz (t : Byte)
  /-- BZP, R144. -/
  | bzp (t : Byte)
  /-- BP, R145. -/
  | bp (t : Byte)
  /-- BNI, R146. -/
  | bni (t : Byte)
  /-- BNC, R147. -/
  | bnc (t : Byte)
  /-- BGE, R148. -/
  | bge (t : Byte)
  /-- BGT, R149. -/
  | bgt (t : Byte)
  /-- BVF, R150. -/
  | bvf (t : Byte)
  /-- BZ, R151. -/
  | bz (t : Byte)
  /-- BN, R152. -/
  | bn (t : Byte)
  /-- BZN, R153. -/
  | bzn (t : Byte)
  /-- BNO, R154. -/
  | bno (t : Byte)
  /-- BC, R155. -/
  | bc (t : Byte)
  /-- BLT, R156. -/
  | blt (t : Byte)
  /-- BLE, R157. -/
  | ble (t : Byte)
  /-- SRA, R121. -/
  | sra (a : RegSel)
  /-- SLA, R122. -/
  | sla (a : RegSel)
  /-- SRL, R123. -/
  | srl (a : RegSel)
  /-- SLL, R124. -/
  | sll (a : RegSel)
  /-- RRA, R125. -/
  | rra (a : RegSel)
  /-- RLA, R126. -/
  | rla (a : RegSel)
  /-- RRL, R127. -/
  | rrl (a : RegSel)
  /-- RLL, R128. -/
  | rll (a : RegSel)
  /-- The table's row ILLEGAL: the first words 0x50 to 0x5F, R61, R201. -/
  | illegal (x : BitVec 4)
  /-- LD, R90. -/
  | ld (a : RegSel) (b : OperandB)
  /-- ST in a memory mode, R91. Its second word is always there (R58), so the mode field stands apart. -/
  | st (a : RegSel) (b : BitVec 3) (d : Byte)
  /-- The table's row ST_ILLEGAL_MODE: ST in the modes ACC, IX and IMMEDIATE, R62, R92. -/
  | stIllegalMode (a : RegSel) (b : BitVec 3) (d : Byte)
  /-- SBC, R106. -/
  | sbc (a : RegSel) (b : OperandB)
  /-- ADC, R104. -/
  | adc (a : RegSel) (b : OperandB)
  /-- SUB, R105. -/
  | sub (a : RegSel) (b : OperandB)
  /-- ADD, R103. -/
  | add (a : RegSel) (b : OperandB)
  /-- EOR, R110. -/
  | eor (a : RegSel) (b : OperandB)
  /-- OR, R109. -/
  | or (a : RegSel) (b : OperandB)
  /-- AND, R108. -/
  | and (a : RegSel) (b : OperandB)
  /-- CMP, R107. -/
  | cmp (a : RegSel) (b : OperandB)
deriving DecidableEq, Repr

end Sys2Proof
end

