-- ==== Sys2Proof/Machine/State.lean ====
section
/-! DEFINITION. The state of the machine (10_state.md), its reset value, and the reasons a step can stop. -/

namespace Sys2Proof.Machine

/-- The four flags (R14): four independent bits, no combined status register. -/
structure Flags where
  cf : Bool
  vf : Bool
  nf : Bool
  zf : Bool
deriving DecidableEq, Repr

/-- A latch: an 8-bit buffer and a 1-bit flag (R17, R18). -/
structure Latch where
  buf : Byte
  flag : Bool
deriving DecidableEq, Repr

/-- The two states of the step driver (R19, R191). -/
inductive RunState where
  | running
  | halted
deriving DecidableEq, Repr

/-- The reason that comes with the status `Halted` (R192, R200), with the value it reports. -/
inductive HaltReason where
  /-- The normal end of a run (R204); not a fault. -/
  | hlt
  /-- Fault: the decoder finds no instruction in the first word `w` (R201). -/
  | illegalOpcode (w : Byte)
  /-- Fault: ST with the first word `w`, whose mode is not storable (R202). -/
  | illegalStoreMode (w : Byte)
  /-- Fault: an access at the address `addr >= MEM_SIZE` (R203). -/
  | addressOutOfRange (addr : Nat)
  /-- A step was asked of a halted machine (R194). -/
  | alreadyHalted
deriving DecidableEq, Repr

/-- The three fault reasons of R200; `HLT` and `AlreadyHalted` are none. -/
def HaltReason.isFault : HaltReason → Bool
  | .illegalOpcode _ | .illegalStoreMode _ | .addressOutOfRange _ => true
  | .hlt | .alreadyHalted => false

/-- What a step returns to the caller (R192). -/
inductive StepStatus where
  | continue
  | halted (r : HaltReason)
deriving DecidableEq, Repr

/-- The machine's state. -/
structure State where
  /-- `x[0]`, the accumulator (R10). -/
  acc : Byte
  /-- `x[1]`, the index register (R10). -/
  ix : Byte
  /-- The program counter (R11). -/
  pc : Addr16
  /-- The memory address register (R12). -/
  mar : Addr16
  /-- The instruction register (R13). -/
  ir : Byte
  /-- The condition flags (R14). -/
  flags : Flags
  /-- The memory array (R21). -/
  mem : Memory
  /-- The output latch (R17). -/
  obuf : Latch
  /-- The input latch, which the environment owns (R18). -/
  ibuf : Latch
  /-- The run register of the step driver (R19). -/
  run : RunState
  /-- DESIGN CHOICE (log entry 3): the model's own output field, the status the latest step returned
  (R192), `none` where no step was done since reset. No rule reads it. -/
  status : Option StepStatus
  /-- DESIGN CHOICE (log entry 6): the model's own field, the parameters of R4, which nothing changes. -/
  params : Params
deriving DecidableEq, Repr

/-- The reasons a step can end without a next state. THERE ARE NONE: the manual describes what every
step leaves behind, the faults included (R190, R193, R206), so every step answers a next state. A
fault of the manual is a `HaltReason` in `State.status`, with `run` at `halted` (log entry 4). -/
inductive Fault where
deriving DecidableEq, Repr

/-- The reasons a step can be refused. -/
inductive Refusal where
  /-- Raised by an arm of `exec` for an instruction without a meaning; safe. No arm of this model
  raises it. -/
  | notModelled (mnemonic : String)
deriving DecidableEq, Repr

/-- The outcome of a step or of an instruction's meaning. -/
abbrev Result := Host.Outcome State Fault Refusal

/-! ## One update per field -/

def State.setAcc (v : Byte) (s : State) : State := { s with acc := v }
def State.setIx (v : Byte) (s : State) : State := { s with ix := v }
def State.setPc (v : Addr16) (s : State) : State := { s with pc := v }
def State.setMar (v : Addr16) (s : State) : State := { s with mar := v }
def State.setIr (v : Byte) (s : State) : State := { s with ir := v }
def State.setFlags (v : Flags) (s : State) : State := { s with flags := v }
def State.setMem (v : Memory) (s : State) : State := { s with mem := v }
def State.setObuf (v : Latch) (s : State) : State := { s with obuf := v }
def State.setIbuf (v : Latch) (s : State) : State := { s with ibuf := v }
def State.setRun (v : RunState) (s : State) : State := { s with run := v }
def State.setStatus (v : Option StepStatus) (s : State) : State := { s with status := v }

/-! ## Reset -/

/-- The state after `reset(memory_image)` (R24, R220): every register and flag zero, the memory equal
to the image, the output latch empty, the driver running. The input latch keeps what the environment
holds there. -/
def State.resetWith (image : List Byte) (s : State) : State :=
  { acc := 0, ix := 0, pc := 0, mar := 0, ir := 0
    flags := { cf := false, vf := false, nf := false, zf := false }
    mem := Memory.ofImage s.params.memSize image
    obuf := { buf := 0, flag := false }
    ibuf := s.ibuf
    run := .running
    status := none
    params := s.params }

/-- The machine right after reset (R24), with the parameters of this hardware. DESIGN CHOICE, unsafe:
no image listed (log entry 1), and the input latch empty (log entry 2: the manual leaves it to the
environment). -/
def State.reset : State :=
  { acc := 0, ix := 0, pc := 0, mar := 0, ir := 0
    flags := { cf := false, vf := false, nf := false, zf := false }
    mem := []
    obuf := { buf := 0, flag := false }
    ibuf := { buf := 0, flag := false }
    run := .running
    status := none
    params := defaultParams }

end Sys2Proof.Machine
end

