-- ==== Sys2Proof/Machine/Ops.lean ====
section
/-! DEFINITION. The operations that every meaning shares: memory access, the fetch of one word, the
end of a step, and the entry into a halt. -/

namespace Sys2Proof.Machine

/-! ## Memory (20_memory.md) -/

/-- `MemRead(addr, 1)` (R32): the word at `addr`, or the fault of R34. -/
def memRead (addr : Nat) (s : State) : Except HaltReason Byte :=
  if addr < s.params.memSize then .ok (s.mem.read addr) else .error (.addressOutOfRange addr)

/-- `MemWrite(addr, 1, v)` (R33): the state with the word at `addr` written, or the fault of R34. -/
def memWrite (addr : Nat) (v : Byte) (s : State) : Except HaltReason State :=
  if addr < s.params.memSize then .ok (s.setMem (s.mem.write addr v))
  else .error (.addressOutOfRange addr)

/-! ## The fetch of one word (R70) -/

/-- `FetchWord()` on the word at `addr`, the address that `pc` stands for: `mar` takes `pc`, and `pc` is one
further, modulo 2^16. Where `addr` is out of range it changes nothing and raises the fault. -/
def fetchWordAt (addr : Nat) (s : State) : Except HaltReason (Byte × State) :=
  match memRead addr s with
  | .error e => .error e
  | .ok w => .ok (w, (s.setMar s.pc).setPc (s.pc + 1))

/-- The opcode fetch (R71): the word at `pc`. -/
def fetchWord (s : State) : Except HaltReason (Byte × State) := fetchWordAt s.pc.toNat s

/-- The fetch of the second word of the instruction at `p`: the word at `p + 1` (R36), a natural number that does
not wrap (R90, R140, decision D10; log entry 6). -/
def fetchSecondWord (p : Addr16) (s : State) : Except HaltReason (Byte × State) :=
  fetchWordAt (p.toNat + 1) s

/-! ## The end of a step -/

/-- `status Continue` (R192). -/
def complete (s : State) : Result := .next (s.setStatus (some .continue))

/-- `run <- Halted` with a reason: the entry of HLT (R181) and of `raise E(info)` (R206). It is all that
"trap entry" is on this machine: the actions of the step that came before stay done, nothing is
saved, no mode changes, control goes nowhere. There is no return from it but reset (R207). -/
def enterHalt (r : HaltReason) (s : State) : Result :=
  .next ((s.setRun .halted).setStatus (some (.halted r)))

/-- A step asked of a halted machine: no change but the status it returns (R194, decision D13). -/
def stayHalted (s : State) : Result := .next (s.setStatus (some (.halted .alreadyHalted)))

end Sys2Proof.Machine
end

