-- ==== Sys2Proof/Machine/Operands.lean ====
section
/-! DEFINITION. Operand A, operand B and the addressing modes (40_fetch_and_operands.md). The second
word `d` is in the instruction's term: the fetch unit has read it before a meaning runs. -/

namespace Sys2Proof.Machine

/-- `ReadA()` (R72): bit 3 clear is the accumulator, bit 3 set the index register. -/
def readA (a : RegSel) (s : State) : Byte :=
  match a with
  | .acc => s.acc
  | .ix => s.ix

/-- `WriteA(v)` (R73): the same selector. -/
def writeA (a : RegSel) (v : Byte) (s : State) : State :=
  match a with
  | .acc => s.setAcc v
  | .ix => s.setIx v

/-- The values of `Mode()` (R74). -/
inductive Mode where
  | acc
  | ix
  | imm
  | mem (m : MemMode)
deriving DecidableEq, Repr

/-- `Mode()` (R74) of the mode field `b`, with the value 3 taken as 2. -/
def modeOfField (b : BitVec 3) : Mode :=
  if b = 0 then .acc
  else if b = 1 then .ix
  else if b = 2 then .imm
  else if b = 3 then .imm
  else if b = 4 then .mem .absText
  else if b = 5 then .mem .absData
  else if b = 6 then .mem .ixText
  else .mem .ixData

/-- `EA(m, d)` (R75), a natural number computed without wrap (R35). -/
def effectiveAddress (m : MemMode) (d : Byte) (s : State) : Nat :=
  match m with
  | .absText => d.toNat
  | .absData => 0x100 + d.toNat
  | .ixText => d.toNat + s.ix.toNat
  | .ixData => 0x100 + d.toNat + s.ix.toNat

/-- `ReadB()` (R76). -/
def readB (b : OperandB) (s : State) : Except HaltReason Byte :=
  match b with
  | .acc => .ok s.acc
  | .ix => .ok s.ix
  | .imm _ d => .ok d
  | .mem m d => memRead (effectiveAddress m d s) s

/-- `WriteB(m, d, v)` (R77). -/
def writeB (m : MemMode) (d : Byte) (v : Byte) (s : State) : Except HaltReason State :=
  memWrite (effectiveAddress m d s) v s

/-- The rest of an instruction on the value of operand B; where `ReadB` raises a fault, the step halts
with it and nothing of the instruction is done (R206). -/
def withB (b : OperandB) (s : State) (rest : Byte → Result) : Result :=
  match readB b s with
  | .error e => enterHalt e s
  | .ok v => rest v

end Sys2Proof.Machine
end

