-- ==== Sys2Proof/Machine/Flags.lean ====
section
/-! DEFINITION. The flag engine (42_alu_flag_engine.md, 43_shift_rotate.md) and the branch predicates
(44_branch.md): results and flags as functions of operand values. -/

namespace Sys2Proof.Machine

/-- What an operation of the flag engine gives: the 8-bit result and the four flags. -/
structure AluOut where
  result : Byte
  flags : Flags
deriving DecidableEq, Repr

/-- The negative bit of `NZ(r)` (R101). -/
def negBit (r : Byte) : Bool := r.getLsbD 7

/-- The zero bit of `NZ(r)` (R101). -/
def zeroBit (r : Byte) : Bool := decide (r = 0)

/-- `Neg8(b)` (R102). -/
def neg8 (b : Byte) : Byte := ~~~b + 1

/-- `carry7` of R100: bit 7 of the sum of the two low-7-bit parts. -/
def carry7 (a b : Byte) : Bool := ((a &&& 0x7F) + (b &&& 0x7F)).getLsbD 7

/-- `AddFlags(a, b)` (R100), in the source's own formulas. -/
def addFlags (a b : Byte) : AluOut :=
  let sA := a.getLsbD 7
  let sB := b.getLsbD 7
  let c7 := carry7 a b
  let r := a + b
  { result := r
    flags :=
      { cf := (sA && sB) || (sA && c7) || (sB && c7)
        vf := (sA && sB && !c7) || (!sA && !sB && c7)
        nf := negBit r
        zf := zeroBit r } }

/-- PRESUMED (log entry 9): `Bc` of R112, the incoming carry folded into operand B. -/
def foldCarry (b : Byte) (cf : Bool) : Byte := b + (BitVec.ofBool cf).setWidth 8

/-- R103. -/
def addOut (a b : Byte) (_ : Flags) : AluOut := addFlags a b

/-- R104. -/
def adcOut (a b : Byte) (f : Flags) : AluOut := addFlags a (foldCarry b f.cf)

/-- R105; also the flags of CMP, R107. -/
def subOut (a b : Byte) (_ : Flags) : AluOut := addFlags a (neg8 b)

/-- R106. -/
def sbcOut (a b : Byte) (f : Flags) : AluOut := addFlags a (neg8 (foldCarry b f.cf))

/-- The flags of a logic result (R108): overflow cleared, carry kept. -/
def logicOut (r : Byte) (f : Flags) : AluOut :=
  { result := r, flags := { cf := f.cf, vf := false, nf := negBit r, zf := zeroBit r } }

/-- R108. -/
def andOut (a b : Byte) (f : Flags) : AluOut := logicOut (a &&& b) f

/-- R109. -/
def orOut (a b : Byte) (f : Flags) : AluOut := logicOut (a ||| b) f

/-- R110. -/
def eorOut (a b : Byte) (f : Flags) : AluOut := logicOut (a ^^^ b) f

/-! ## Shifts and rotates -/

/-- A move by one place to the right, with `fill` put into bit 7 (R121, R123, R125): carry is the bit
shifted out, overflow is cleared. -/
def moveRight (fill : Bool) (v : Byte) : AluOut :=
  let r : Byte := BitVec.ofBool fill ++ v.extractLsb' 1 7
  { result := r, flags := { cf := v.getLsbD 0, vf := false, nf := negBit r, zf := zeroBit r } }

/-- A move by one place to the left, with `fill` put into bit 0 (R122, R124, R126, R128): carry is the
bit shifted out. Overflow says whether the sign flipped where `signed` is true; else it is cleared. -/
def moveLeft (signed fill : Bool) (v : Byte) : AluOut :=
  let r : Byte := v.extractLsb' 0 7 ++ BitVec.ofBool fill
  { result := r
    flags :=
      { cf := v.getLsbD 7
        vf := signed && (v.getLsbD 7 ^^ r.getLsbD 7)
        nf := negBit r
        zf := zeroBit r } }

/-- R121. -/
def sraOut (v : Byte) : AluOut := moveRight (v.getLsbD 7) v

/-- R122. -/
def slaOut (v : Byte) : AluOut := moveLeft true false v

/-- R123. -/
def srlOut (v : Byte) : AluOut := moveRight false v

/-- R124. -/
def sllOut (v : Byte) : AluOut := moveLeft false false v

/-- What a rotate to the right puts into bit 7 of its result (R129). -/
def rorFillBit (fill : RorFill) (cfOld : Bool) (v : Byte) : Bool :=
  match fill with
  | .bit0 => v.getLsbD 0
  | .oldCf => cfOld

/-- R125 and, by its last sentence, R127. -/
def rotateRightOut (fill : RorFill) (cfOld : Bool) (v : Byte) : AluOut :=
  moveRight (rorFillBit fill cfOld v) v

/-- R126; carry and overflow as R130 says. -/
def rlaOut (v : Byte) : AluOut := moveLeft true (v.getLsbD 7) v

/-- R128; carry and overflow as R130 says. -/
def rllOut (v : Byte) : AluOut := moveLeft false (v.getLsbD 7) v

/-! ## Branch predicates -/

/-- The value of a predicate (R141, columns 4 and 5), on the flags and the two latch flags. -/
def predicateHolds (p : Predicate) (s : State) : Bool :=
  let f := s.flags
  match p with
  | .unconditional => true
  | .notZero => !f.zf
  | .notNegative => !f.nf
  | .positive => !(f.nf || f.zf)
  | .inputNotReady => !s.ibuf.flag
  | .notCarry => !f.cf
  | .signedGreaterOrEqual => !(f.vf ^^ f.nf)
  | .signedGreater => !((f.vf ^^ f.nf) || f.zf)
  | .overflow => f.vf
  | .zero => f.zf
  | .negative => f.nf
  | .zeroOrNegative => f.nf || f.zf
  | .outputReady => s.obuf.flag
  | .carry => f.cf
  | .signedLess => f.vf ^^ f.nf
  | .signedLessOrEqual => (f.vf ^^ f.nf) || f.zf

/-- `Cond(cc)` (R141): the predicate that `CC_TABLE` has at `cc`. -/
def condHolds (cc : Fin 16) (s : State) : Bool := predicateHolds s.params.ccTable[cc] s

end Sys2Proof.Machine
end

