-- ==== Sys2Proof/Machine/Alu.lean ====
section
/-! DEFINITION. ADD, ADC, SUB, SBC, CMP, AND, OR and EOR (42_alu_flag_engine.md). -/

namespace Sys2Proof.Machine

/-- An operation on operands A and B that writes the flags and operand A (R103 to R106, R108 to R110).
All reads come before all writes (R80). -/
def aluWrite (f : Byte → Byte → Flags → AluOut) (a : RegSel) (b : OperandB) (s : State) : Result :=
  withB b s fun v =>
    let o := f (readA a s) v s.flags
    complete (writeA a o.result (s.setFlags o.flags))

/-- An operation on operands A and B that writes the flags only (R107). -/
def aluCompare (f : Byte → Byte → Flags → AluOut) (a : RegSel) (b : OperandB) (s : State) : Result :=
  withB b s fun v => complete (s.setFlags (f (readA a s) v s.flags).flags)

/-- ADD (R103). -/
def execAdd (a : RegSel) (b : OperandB) (s : State) : Result := aluWrite addOut a b s

/-- ADC (R104). -/
def execAdc (a : RegSel) (b : OperandB) (s : State) : Result := aluWrite adcOut a b s

/-- SUB (R105). -/
def execSub (a : RegSel) (b : OperandB) (s : State) : Result := aluWrite subOut a b s

/-- SBC (R106). -/
def execSbc (a : RegSel) (b : OperandB) (s : State) : Result := aluWrite sbcOut a b s

/-- CMP (R107). -/
def execCmp (a : RegSel) (b : OperandB) (s : State) : Result := aluCompare subOut a b s

/-- AND (R108). -/
def execAnd (a : RegSel) (b : OperandB) (s : State) : Result := aluWrite andOut a b s

/-- OR (R109). -/
def execOr (a : RegSel) (b : OperandB) (s : State) : Result := aluWrite orOut a b s

/-- EOR (R110). -/
def execEor (a : RegSel) (b : OperandB) (s : State) : Result := aluWrite eorOut a b s

end Sys2Proof.Machine
end

