-- ==== Sys2Proof/Machine/Branch.lean ====
section
/-! DEFINITION. The sixteen branches (44_branch.md). -/

namespace Sys2Proof.Machine

/-- A branch (R140) with the condition code `cc` and the target `t`, which the fetch unit has consumed
already, taken or not. -/
def branch (cc : Fin 16) (t : Byte) (s : State) : Result :=
  complete (if condHolds cc s then s.setPc (zext16 t) else s)

/-- BA (R142). -/
def execBa (t : Byte) (s : State) : Result := branch 0 t s

/-- BNZ (R143). -/
def execBnz (t : Byte) (s : State) : Result := branch 1 t s

/-- BZP (R144). -/
def execBzp (t : Byte) (s : State) : Result := branch 2 t s

/-- BP (R145). -/
def execBp (t : Byte) (s : State) : Result := branch 3 t s

/-- BNI (R146). -/
def execBni (t : Byte) (s : State) : Result := branch 4 t s

/-- BNC (R147). -/
def execBnc (t : Byte) (s : State) : Result := branch 5 t s

/-- BGE (R148). -/
def execBge (t : Byte) (s : State) : Result := branch 6 t s

/-- BGT (R149). -/
def execBgt (t : Byte) (s : State) : Result := branch 7 t s

/-- BVF (R150). -/
def execBvf (t : Byte) (s : State) : Result := branch 8 t s

/-- BZ (R151). -/
def execBz (t : Byte) (s : State) : Result := branch 9 t s

/-- BN (R152). -/
def execBn (t : Byte) (s : State) : Result := branch 10 t s

/-- BZN (R153). -/
def execBzn (t : Byte) (s : State) : Result := branch 11 t s

/-- BNO (R154). -/
def execBno (t : Byte) (s : State) : Result := branch 12 t s

/-- BC (R155). -/
def execBc (t : Byte) (s : State) : Result := branch 13 t s

/-- BLT (R156). -/
def execBlt (t : Byte) (s : State) : Result := branch 14 t s

/-- BLE (R157). -/
def execBle (t : Byte) (s : State) : Result := branch 15 t s

end Sys2Proof.Machine
end

