-- ==== Sys2Proof/Machine/CallReturn.lean ====
section
/-! DEFINITION. JAL and JR (45_call_return.md). -/

namespace Sys2Proof.Machine

/-- JAL (R170): `pc` is past the second word already, and its low 8 bits are the return address. -/
def execJal (t : Byte) (s : State) : Result :=
  complete ((s.setAcc (s.pc.setWidth 8)).setPc (zext16 t))

/-- JR (R171). -/
def execJr (s : State) : Result := complete (s.setPc (zext16 s.acc))

end Sys2Proof.Machine
end

