-- ==== Sys2Proof/Machine/Control.lean ====
section
/-! DEFINITION. NOP, HLT, OUT, IN, RCF, SCF (46_io_and_control.md) and the illegal first words (R201). -/

namespace Sys2Proof.Machine

/-- NOP (R180). -/
def execNop (s : State) : Result := complete s

/-- HLT in the first words 0x08 and 0x09 (R181). -/
def execHlt (s : State) : Result := enterHalt .hlt s

/-- HLT in the first words 0x0C to 0x0F (R181). -/
def execHltHigh (s : State) : Result := enterHalt .hlt s

/-- OUT (R182): the flag is not tested first. -/
def execOut (s : State) : Result := complete (s.setObuf { buf := s.acc, flag := true })

/-- IN (R183): the flag is not tested first, and the buffer keeps its value. -/
def execInp (s : State) : Result :=
  complete ((s.setAcc s.ibuf.buf).setIbuf { buf := s.ibuf.buf, flag := false })

/-- RCF (R184). PRESUMED (log entry 10). -/
def execRcf (s : State) : Result := complete (s.setFlags { s.flags with cf := false })

/-- SCF (R185). PRESUMED (log entry 10). -/
def execScf (s : State) : Result := complete (s.setFlags { s.flags with cf := true })

/-- An illegal first word (R201): the fault `IllegalOpcode(ir)`. -/
def execIllegal (s : State) : Result := enterHalt (.illegalOpcode s.ir) s

end Sys2Proof.Machine
end

