-- ==== Sys2Proof/Machine/LoadStore.lean ====
section
/-! DEFINITION. LD and ST (41_load_store.md). -/

namespace Sys2Proof.Machine

/-- LD (R90): no flag is written. -/
def execLd (a : RegSel) (b : OperandB) (s : State) : Result :=
  withB b s fun v => complete (writeA a v s)

/-- ST through the mode field `b` with the second word `d` (R91, R92): the pseudocode of R91 after the
fetches. In a mode that is not storable it raises `IllegalStoreMode(ir)`. -/
def storeThrough (a : RegSel) (b : BitVec 3) (d : Byte) (s : State) : Result :=
  match modeOfField b with
  | .acc | .ix | .imm => enterHalt (.illegalStoreMode s.ir) s
  | .mem m =>
    match writeB m d (readA a s) s with
    | .error e => enterHalt e s
    | .ok s' => complete s'

/-- ST in a memory mode (R91). -/
def execSt (a : RegSel) (b : BitVec 3) (d : Byte) (s : State) : Result := storeThrough a b d s

/-- ST in a mode that is not storable (R92). -/
def execStIllegalMode (a : RegSel) (b : BitVec 3) (d : Byte) (s : State) : Result :=
  storeThrough a b d s

end Sys2Proof.Machine
end

