-- ==== Sys2Proof/Machine/Shift.lean ====
section
/-! DEFINITION. The four shifts and the four rotates (43_shift_rotate.md). -/

namespace Sys2Proof.Machine

/-- A shift or rotate of operand A, which writes operand A and all four flags (R120). -/
def shiftA (f : Byte → AluOut) (a : RegSel) (s : State) : Result :=
  let o := f (readA a s)
  complete (writeA a o.result (s.setFlags o.flags))

/-- SRA (R121). -/
def execSra (a : RegSel) (s : State) : Result := shiftA sraOut a s

/-- SLA (R122). -/
def execSla (a : RegSel) (s : State) : Result := shiftA slaOut a s

/-- SRL (R123). -/
def execSrl (a : RegSel) (s : State) : Result := shiftA srlOut a s

/-- SLL (R124). -/
def execSll (a : RegSel) (s : State) : Result := shiftA sllOut a s

/-- RRA (R125). -/
def execRra (a : RegSel) (s : State) : Result :=
  shiftA (rotateRightOut s.params.rorFill s.flags.cf) a s

/-- RLA (R126). -/
def execRla (a : RegSel) (s : State) : Result := shiftA rlaOut a s

/-- RRL (R127): the result and the flags of RRA. -/
def execRrl (a : RegSel) (s : State) : Result :=
  shiftA (rotateRightOut s.params.rorFill s.flags.cf) a s

/-- RLL (R128). -/
def execRll (a : RegSel) (s : State) : Result := shiftA rllOut a s

end Sys2Proof.Machine
end

