-- ==== Sys2Proof/Machine/Dispatch.lean ====
section
/-! DEFINITION. The meaning of each instruction, on the state after its words were fetched. -/

namespace Sys2Proof.Machine

def exec (i : Instr) (s : State) : Host.Outcome State Fault Refusal :=
  match i with
  | .nop _ => Sys2Proof.Machine.execNop s
  | .hlt _ => Sys2Proof.Machine.execHlt s
  | .jal t => Sys2Proof.Machine.execJal t s
  | .jr => Sys2Proof.Machine.execJr s
  | .hltHigh _ => Sys2Proof.Machine.execHltHigh s
  | .out _ => Sys2Proof.Machine.execOut s
  | .inp _ => Sys2Proof.Machine.execInp s
  | .rcf _ => Sys2Proof.Machine.execRcf s
  | .scf _ => Sys2Proof.Machine.execScf s
  | .ba t => Sys2Proof.Machine.execBa t s
  | .bnz t => Sys2Proof.Machine.execBnz t s
  | .bzp t => Sys2Proof.Machine.execBzp t s
  | .bp t => Sys2Proof.Machine.execBp t s
  | .bni t => Sys2Proof.Machine.execBni t s
  | .bnc t => Sys2Proof.Machine.execBnc t s
  | .bge t => Sys2Proof.Machine.execBge t s
  | .bgt t => Sys2Proof.Machine.execBgt t s
  | .bvf t => Sys2Proof.Machine.execBvf t s
  | .bz t => Sys2Proof.Machine.execBz t s
  | .bn t => Sys2Proof.Machine.execBn t s
  | .bzn t => Sys2Proof.Machine.execBzn t s
  | .bno t => Sys2Proof.Machine.execBno t s
  | .bc t => Sys2Proof.Machine.execBc t s
  | .blt t => Sys2Proof.Machine.execBlt t s
  | .ble t => Sys2Proof.Machine.execBle t s
  | .sra a => Sys2Proof.Machine.execSra a s
  | .sla a => Sys2Proof.Machine.execSla a s
  | .srl a => Sys2Proof.Machine.execSrl a s
  | .sll a => Sys2Proof.Machine.execSll a s
  | .rra a => Sys2Proof.Machine.execRra a s
  | .rla a => Sys2Proof.Machine.execRla a s
  | .rrl a => Sys2Proof.Machine.execRrl a s
  | .rll a => Sys2Proof.Machine.execRll a s
  | .illegal _ => Sys2Proof.Machine.execIllegal s
  | .ld a b => Sys2Proof.Machine.execLd a b s
  | .st a b d => Sys2Proof.Machine.execSt a b d s
  | .stIllegalMode a b d => Sys2Proof.Machine.execStIllegalMode a b d s
  | .sbc a b => Sys2Proof.Machine.execSbc a b s
  | .adc a b => Sys2Proof.Machine.execAdc a b s
  | .sub a b => Sys2Proof.Machine.execSub a b s
  | .add a b => Sys2Proof.Machine.execAdd a b s
  | .eor a b => Sys2Proof.Machine.execEor a b s
  | .or a b => Sys2Proof.Machine.execOr a b s
  | .and a b => Sys2Proof.Machine.execAnd a b s
  | .cmp a b => Sys2Proof.Machine.execCmp a b s

end Sys2Proof.Machine
end

