-- ==== Sys2Proof/WellFormed.lean ====
section
/-! DEFINITION. Which terms of Instr stand for words of the machine. -/

namespace Sys2Proof

/-- A term is well formed when some words decode to it. Only the mode field of a store can be wrong:
ST holds a memory mode (bit 2 set, first words 0x74 to 0x77 and 0x7C to 0x7F, R91), ST_ILLEGAL_MODE
one of the others (bit 2 clear, R92). Every other field is typed so that each value is encodable. -/
def Instr.wellFormed : Instr → Bool
  | .st _ b _ => b.getLsbD 2
  | .stIllegalMode _ b _ => !b.getLsbD 2
  | .nop _ | .hlt _ | .jal _ | .jr | .hltHigh _ | .out _ | .inp _ | .rcf _ | .scf _ => true
  | .ba _ | .bnz _ | .bzp _ | .bp _ | .bni _ | .bnc _ | .bge _ | .bgt _ => true
  | .bvf _ | .bz _ | .bn _ | .bzn _ | .bno _ | .bc _ | .blt _ | .ble _ => true
  | .sra _ | .sla _ | .srl _ | .sll _ | .rra _ | .rla _ | .rrl _ | .rll _ => true
  | .illegal _ | .ld _ _ => true
  | .sbc _ _ | .adc _ _ | .sub _ _ | .add _ _ | .eor _ _ | .or _ _ | .and _ _ | .cmp _ _ => true

end Sys2Proof
end

