-- ==== Sys2Proof/Decode.lean ====
section
/-! DEFINITION. The instruction decoder (R50 to R66) and, after it, the encoder. -/

namespace Sys2Proof

/-! ## Fields of the first word (R51) -/

/-- `a = ir[3]` (R54). -/
def fieldA (w : Byte) : RegSel := if w.getLsbD 3 then .ix else .acc

/-- `b = ir[2:0]` (R55). -/
def fieldB (w : Byte) : BitVec 3 := w.extractLsb' 0 3

/-- `op = ir[7:4]`, the upper nibble. -/
def fieldOp (w : Byte) : BitVec 4 := w.extractLsb' 4 4

/-- `cc = ir[3:0]` of a branch (R57); the same four bits are ignored in an illegal first word. -/
def fieldCc (w : Byte) : BitVec 4 := w.extractLsb' 0 4

/-- The bits 2:0 that NOP, OUT, IN, RCF and SCF ignore (R59). -/
def fieldX (w : Byte) : BitVec 3 := w.extractLsb' 0 3

/-! ## Decoding -/

/-- Operand B from the mode field `b` and the second word `d`, which modes 0 and 1 do not use (R55). -/
def operandOfFields (b : BitVec 3) (d : Byte) : OperandB :=
  if b = 0 then .acc
  else if b = 1 then .ix
  else if b = 2 then .imm false d
  else if b = 3 then .imm true d
  else if b = 4 then .mem .absText d
  else if b = 5 then .mem .absData d
  else if b = 6 then .mem .ixText d
  else .mem .ixData d

/-- R58: whether the instruction with the first word `w` has a second word. -/
def needsSecond (w : Byte) : Bool :=
  let op := fieldOp w
  if w = 0x0A then true                                   -- JAL
  else if op = 0x3 then true                              -- every branch
  else if op = 0x7 then true                              -- ST in every mode
  else if op = 0x6 then decide (2 ≤ fieldB w)             -- LD
  else if 0x8 ≤ op then decide (2 ≤ fieldB w)             -- the eight ALU instructions
  else false

/-- The branch with the condition code `cc` (R53, R141). -/
def branchOfCc (cc : BitVec 4) (t : Byte) : Instr :=
  if cc = 0x0 then .ba t
  else if cc = 0x1 then .bnz t
  else if cc = 0x2 then .bzp t
  else if cc = 0x3 then .bp t
  else if cc = 0x4 then .bni t
  else if cc = 0x5 then .bnc t
  else if cc = 0x6 then .bge t
  else if cc = 0x7 then .bgt t
  else if cc = 0x8 then .bvf t
  else if cc = 0x9 then .bz t
  else if cc = 0xA then .bn t
  else if cc = 0xB then .bzn t
  else if cc = 0xC then .bno t
  else if cc = 0xD then .bc t
  else if cc = 0xE then .blt t
  else .ble t

/-- The shift or rotate with bits 2:0 equal to `rsm`: bit 2 is `r`, bits 1:0 are the sub-mode
(R52, R56; the sub-mode numbers are decision D2). -/
def shiftOfFields (rsm : BitVec 3) (a : RegSel) : Instr :=
  if rsm = 0 then .sra a
  else if rsm = 1 then .sla a
  else if rsm = 2 then .srl a
  else if rsm = 3 then .sll a
  else if rsm = 4 then .rra a
  else if rsm = 5 then .rla a
  else if rsm = 6 then .rrl a
  else .rll a

/-- `Decode` (R52) on the first word `w`, with the second word `d` put in its place where the
instruction has one. The tests stand in the manual's priority order. -/
def decodeWords (w d : Byte) : Instr :=
  let op := fieldOp w
  let a := fieldA w
  let b := operandOfFields (fieldB w) d
  if w = 0x0A then .jal d
  else if w = 0x0B then .jr
  else if op = 0x0 then
    if !w.getLsbD 3 then .nop (fieldX w)
    else if !w.getLsbD 2 then .hlt (w.extractLsb' 0 1)
    else .hltHigh (w.extractLsb' 0 2)
  else if op = 0x1 then (if !w.getLsbD 3 then .out (fieldX w) else .inp (fieldX w))
  else if op = 0x2 then (if !w.getLsbD 3 then .rcf (fieldX w) else .scf (fieldX w))
  else if op = 0x3 then branchOfCc (fieldCc w) d
  else if op = 0x4 then shiftOfFields (fieldB w) a
  else if op = 0x5 then .illegal (fieldCc w)
  else if op = 0x6 then .ld a b
  else if op = 0x7 then
    (if w.getLsbD 2 then .st a (fieldB w) d else .stIllegalMode a (fieldB w) d)
  else if op = 0x8 then .sbc a b
  else if op = 0x9 then .adc a b
  else if op = 0xA then .sub a b
  else if op = 0xB then .add a b
  else if op = 0xC then .eor a b
  else if op = 0xD then .or a b
  else if op = 0xE then .and a b
  else .cmp a b

/-- Why a sequence of bytes holds no instruction. An illegal first word is no such reason: it is the
instruction `Instr.illegal`, whose meaning is the fault of R201. -/
inductive DecodeError where
  /-- There is no byte at all. -/
  | noFirstWord
  /-- The first word asks for a second one (R58) and there is none. -/
  | noSecondWord
deriving DecidableEq, Repr

/-- The decoder on a sequence of bytes: the instruction at its head and the bytes after it. -/
def decode : List Byte → Except DecodeError (Instr × List Byte)
  | [] => .error .noFirstWord
  | w :: rest =>
    if needsSecond w then
      match rest with
      | [] => .error .noSecondWord
      | d :: rest' => .ok (decodeWords w d, rest')
    else .ok (decodeWords w 0, rest)

/-! ## Encoding (R66) -/

/-- The selector bit of operand A (R54). -/
def RegSel.bit : RegSel → BitVec 1
  | .acc => 0
  | .ix => 1

/-- The mode field of a memory mode (R55). -/
def MemMode.bits : MemMode → BitVec 3
  | .absText => 4
  | .absData => 5
  | .ixText => 6
  | .ixData => 7

/-- The mode field of operand B (R55). -/
def OperandB.bits : OperandB → BitVec 3
  | .acc => 0
  | .ix => 1
  | .imm false _ => 2
  | .imm true _ => 3
  | .mem m _ => m.bits

/-- The second word that operand B asks for (R58). -/
def OperandB.second : OperandB → List Byte
  | .acc | .ix => []
  | .imm _ d => [d]
  | .mem _ d => [d]

/-- Format M and format S first words: the upper nibble, the selector, three low bits (R51). -/
def wordM (op : BitVec 4) (a : RegSel) (low : BitVec 3) : Byte := op ++ a.bit ++ low

/-- Format Z first words: the upper nibble, the bit `s`, three ignored bits (R51). -/
def wordZ (op : BitVec 4) (s : BitVec 1) (x : BitVec 3) : Byte := op ++ s ++ x

/-- Format B first words: the upper nibble 3 and the condition code (R51). -/
def wordB (cc : BitVec 4) : Byte := (0x3 : BitVec 4) ++ cc

/-- A format M instruction that reads operand B. -/
def encodeM (op : BitVec 4) (a : RegSel) (b : OperandB) : List Byte :=
  wordM op a b.bits :: b.second

/-- The words of an instruction (R53, R66). -/
def encode : Instr → List Byte
  | .nop x => [wordZ 0x0 0 x]
  | .hlt x => [(0b0000100 : BitVec 7) ++ x]
  | .jal t => [0x0A, t]
  | .jr => [0x0B]
  | .hltHigh x => [(0b000011 : BitVec 6) ++ x]
  | .out x => [wordZ 0x1 0 x]
  | .inp x => [wordZ 0x1 1 x]
  | .rcf x => [wordZ 0x2 0 x]
  | .scf x => [wordZ 0x2 1 x]
  | .ba t => [wordB 0x0, t]
  | .bnz t => [wordB 0x1, t]
  | .bzp t => [wordB 0x2, t]
  | .bp t => [wordB 0x3, t]
  | .bni t => [wordB 0x4, t]
  | .bnc t => [wordB 0x5, t]
  | .bge t => [wordB 0x6, t]
  | .bgt t => [wordB 0x7, t]
  | .bvf t => [wordB 0x8, t]
  | .bz t => [wordB 0x9, t]
  | .bn t => [wordB 0xA, t]
  | .bzn t => [wordB 0xB, t]
  | .bno t => [wordB 0xC, t]
  | .bc t => [wordB 0xD, t]
  | .blt t => [wordB 0xE, t]
  | .ble t => [wordB 0xF, t]
  | .sra a => [wordM 0x4 a 0]
  | .sla a => [wordM 0x4 a 1]
  | .srl a => [wordM 0x4 a 2]
  | .sll a => [wordM 0x4 a 3]
  | .rra a => [wordM 0x4 a 4]
  | .rla a => [wordM 0x4 a 5]
  | .rrl a => [wordM 0x4 a 6]
  | .rll a => [wordM 0x4 a 7]
  | .illegal x => [(0x5 : BitVec 4) ++ x]
  | .ld a b => encodeM 0x6 a b
  | .st a b d => [wordM 0x7 a b, d]
  | .stIllegalMode a b d => [wordM 0x7 a b, d]
  | .sbc a b => encodeM 0x8 a b
  | .adc a b => encodeM 0x9 a b
  | .sub a b => encodeM 0xA a b
  | .add a b => encodeM 0xB a b
  | .eor a b => encodeM 0xC a b
  | .or a b => encodeM 0xD a b
  | .and a b => encodeM 0xE a b
  | .cmp a b => encodeM 0xF a b

/-! ## The host's question about one table row -/

/-- The two bytes the host's number `w` of `nbits` bits stands for: bits 7:0 are the first word, bits
15:8 the second, bits from `nbits` up are 0. -/
def tableWords (nbits w : Nat) : Byte × Byte :=
  let v := w % 2 ^ nbits
  (BitVec.ofNat 8 v, BitVec.ofNat 8 (v / 256))

/-- The instruction the decoder reads from the host's number `w`. -/
def decodeTableWord (nbits w : Nat) : Option Instr :=
  let (w0, w1) := tableWords nbits w
  match decode [w0, w1] with
  | .ok (i, _) => some i
  | .error _ => none

end Sys2Proof
end

