-- ==== Sys2Proof/Machine/Fetch.lean ====
section
/-! DEFINITION. The fetch unit: the words of one instruction, read at the program counter, and the
step's use of them. -/

namespace Sys2Proof.Machine

/-- What the fetch unit hands to the executor. -/
inductive Fetched where
  /-- The instruction, and the state after its words were fetched. -/
  | instr (i : Instr) (s : State)
  /-- A fetch was out of range: the reason, and the state after the fetches that were done. -/
  | raised (r : HaltReason) (s : State)
deriving DecidableEq, Repr

/-- The opcode fetch (R71), the decoder's look at the first word, and the fetch of the second word where
R58 asks for one. The second fetch does not write `ir`. -/
def fetchInstr (s : State) : Fetched :=
  match fetchWord s with
  | .error e => .raised e s
  | .ok (w, s1) =>
    let s2 := s1.setIr w
    if needsSecond w then
      match fetchSecondWord s.pc s2 with
      | .error e => .raised e s2
      | .ok (d, s3) => .instr (decodeWords w d) s3
    else .instr (decodeWords w 0) s2

/-- The address at which `withFetchWord` stores an instruction: the program counter, or 0 where two
words do not fit there. -/
def loadAddress (s : State) : Nat :=
  if s.pc.toNat + 1 < s.params.memSize then s.pc.toNat else 0

/-- The state with the two bytes `w0`, `w1` stored where the next step fetches, and the driver running. -/
def placeWords (w0 w1 : Byte) (s : State) : State :=
  let a := loadAddress s
  ((s.setPc (BitVec.ofNat 16 a)).setMem ((s.mem.write a w0).write (a + 1) w1)).setRun .running

end Sys2Proof.Machine
end

