-- ==== Sys2Proof/Machine/Step.lean ====
section
/-! DEFINITION. The step driver (47_step_driver.md). -/

namespace Sys2Proof.Machine

/-- `Step()` (R190). -/
def step (s : State) : Host.Outcome State Fault Refusal :=
  match s.run with
  | .halted => stayHalted s
  | .running =>
    match fetchInstr s with
    | .raised r s' => enterHalt r s'
    | .instr i s' => exec i s'

/-- The host's load of one instruction, numbered as spec/opcode_table.json numbers its bits: stored at
the program counter of a running machine (log entry 25). -/
def State.withFetchWord (s : State) (nbits w : Nat) : State :=
  let (w0, w1) := tableWords nbits w
  placeWords w0 w1 s

end Sys2Proof.Machine
end

