-- ==== Sys2Proof/Machine/Environment.lean ====
section
/-! DEFINITION. The environment's side of the interface (R186, R196): what it may do between two steps,
and what it may read. -/

namespace Sys2Proof.Machine

/-- What the environment may do to the machine between two steps (R196). A step is its other request;
everything that is not in this list nobody may do. -/
inductive EnvAction where
  /-- `reset(memory_image)`. -/
  | reset (image : List Byte)
  /-- Write `ibuf.buf`. -/
  | writeInput (v : Byte)
  /-- Set `ibuf.flag`. -/
  | setInputFlag
  /-- Clear `obuf.flag`, once the output is taken. -/
  | clearOutputFlag
deriving DecidableEq, Repr

/-- The effect of an action of the environment. -/
def envAct (e : EnvAction) (s : State) : State :=
  match e with
  | .reset image => s.resetWith image
  | .writeInput v => s.setIbuf { s.ibuf with buf := v }
  | .setInputFlag => s.setIbuf { s.ibuf with flag := true }
  | .clearOutputFlag => s.setObuf { s.obuf with flag := false }

/-- What `peek` returns (R22, R196). -/
structure Peeked where
  acc : Byte
  ix : Byte
  pc : Addr16
  flags : Flags
deriving DecidableEq, Repr

/-- `peek` (R22): it changes nothing. -/
def peek (s : State) : Peeked := { acc := s.acc, ix := s.ix, pc := s.pc, flags := s.flags }

end Sys2Proof.Machine
end

