-- ==== Sys2Proof/Safety.lean ====
section
/-! DEFINITION. What counts as a good state and a good end of a run, and the words the statements use. -/

namespace Sys2Proof.Machine

/-! ## Ends of a run (R195, R206) -/

/-- The latest step ended in one of the three faults: a state that refutes "the program runs correctly"
(R206, decision D17). -/
def State.isFaultState (s : State) : Bool :=
  match s.status with
  | some (.halted r) => r.isFault
  | _ => false

/-- The latest step was HLT: the only normal end of a run (R204, R206). -/
def State.isNormalEnd (s : State) : Bool := decide (s.status = some (.halted .hlt))

/-! ## The invariant -/

/-- The run register says `Halted` exactly where the latest step returned `Halted` (R191). -/
def State.statusAgrees (s : State) : Bool :=
  match s.run, s.status with
  | .halted, some (.halted _) => true
  | .running, none => true
  | .running, some .continue => true
  | _, _ => false

/-- The invariant of the machine: legal parameters (R4), memory in canonical form with every listed
address below `MEM_SIZE` (R21), `pc` at most `MEM_SIZE` (R11), `mar` at an address that exists (R12),
and the run register in agreement with the status (R191). -/
structure State.Inv (s : State) : Prop where
  params_legal : s.params.legal = true
  mem_wf : s.mem.wf = true
  mem_within : s.mem.within s.params.memSize = true
  pc_le : s.pc.toNat ≤ s.params.memSize
  mar_lt : s.mar.toNat < s.params.memSize
  status_agrees : s.statusAgrees = true

/-- The states a machine can come to: from a reset with any image, over any input latch and any legal
parameters, by steps and actions of the environment in any order (R196). -/
inductive Reachable : State → Prop where
  | reset (image : List Byte) (s : State) (h : s.params.legal = true) : Reachable (s.resetWith image)
  | step (s t : State) (hs : Reachable s) (h : step s = .next t) : Reachable t
  | env (e : EnvAction) (s : State) (hs : Reachable s) : Reachable (envAct e s)

/-! ## Words of the statements -/

/-- The word at `pc`: the first word of the instruction that the next step fetches. -/
def State.opcode (s : State) : Byte := s.mem.read s.pc.toNat

/-- The word after it. -/
def State.secondWord (s : State) : Byte := s.mem.read (s.pc.toNat + 1)

/-- The driver runs and the opcode fetch is in range. -/
def State.canFetchOne (s : State) : Prop := s.run = .running ∧ s.pc.toNat < s.params.memSize

/-- The driver runs and both words are in range. -/
def State.canFetchTwo (s : State) : Prop := s.canFetchOne ∧ s.pc.toNat + 1 < s.params.memSize

/-- The state after the opcode fetch (R70, R71). -/
def State.afterOne (s : State) : State := { s with pc := s.pc + 1, mar := s.pc, ir := s.opcode }

/-- The state after the fetch of two words (R70, R71). -/
def State.afterTwo (s : State) : State := { s with pc := s.pc + 2, mar := s.pc + 1, ir := s.opcode }

/-- The end of a step with the status `Continue`. -/
def State.done (s : State) : State := { s with status := some .continue }

/-- The end of a step with the status `Halted(r)`. -/
def State.stopped (r : HaltReason) (s : State) : State :=
  { s with run := .halted, status := some (.halted r) }

/-- The signed values an 8-bit word can hold. -/
def inSignedRange (x : Int) : Prop := -128 ≤ x ∧ x ≤ 127

/-- An instruction done `n` times over, with nothing fetched in between. -/
def execTimes (i : Instr) : Nat → State → Result
  | 0, s => .next s
  | n + 1, s =>
    match exec i s with
    | .next t => execTimes i n t
    | .fault r => .fault r
    | .refused r => .refused r

end Sys2Proof.Machine
end

