-- ==== Sys2Proof/Certificates/Slice0/Obligations.lean ====
section
/-! DEFINITION. The statements for the provers. Flags, registers and memory of a next state are given by
record updates of the state before, so that a field that an update does not name is unchanged. -/

open Sys2Proof Sys2Proof.Machine

/-! ## Encoding -/

/-- R52, R66: the decoder gives back every well-formed instruction from its words, whatever follows. R66 is an
inference that the spec marks as its own. -/
def Obligations.DecodeOfEncodeIsTheInstruction : Prop :=
  ∀ (i : Instr) (rest : List Byte), i.wellFormed = true → decode (encode i ++ rest) = .ok (i, rest)

/-- R52, R59, R66: what the decoder reads is well formed, and its words are the bytes it was read from:
no bit of a first or second word is dropped. R59 and R66 are inferences that the spec marks as its own. -/
def Obligations.EncodeOfDecodeIsTheWords : Prop :=
  ∀ (bytes rest : List Byte) (i : Instr), decode bytes = .ok (i, rest) →
    i.wellFormed = true ∧ encode i ++ rest = bytes

/-- R193: the decoder refuses exactly the empty sequence and a lone first word that asks for a second. -/
def Obligations.DecoderRefusesOnlyMissingWords : Prop :=
  ∀ (bytes : List Byte) (e : DecodeError), decode bytes = .error e ↔
    (bytes = [] ∧ e = .noFirstWord) ∨
    (∃ w, bytes = [w] ∧ needsSecond w = true ∧ e = .noSecondWord)

/-- R58, with its cases as numbers: JAL, the branches, ST in every mode, and LD and the eight ALU
instructions where `b` is 2 or more have a second word; nothing else has, and none has a third. The fetch
unit moves `pc` by exactly as many words. -/
def Obligations.SecondWordExactlyByTheLengthRule : Prop :=
  ∀ (w : Byte),
    let two := w.toNat = 0x0A ∨ (0x30 ≤ w.toNat ∧ w.toNat ≤ 0x3F) ∨ (0x70 ≤ w.toNat ∧ w.toNat ≤ 0x7F) ∨
      (((0x60 ≤ w.toNat ∧ w.toNat ≤ 0x6F) ∨ 0x80 ≤ w.toNat) ∧ 2 ≤ w.toNat % 8)
    (∀ (d : Byte) (rest : List Byte), ∃ i,
      decode (w :: d :: rest) = .ok (i, if two then rest else d :: rest)) ∧
    (∀ (s : State), s.canFetchTwo → s.opcode = w → ∃ i t,
      fetchInstr s = .instr i t ∧ t.pc = if two then s.pc + 2 else s.pc + 1)

/-- The opcode map, row by row. The rows of nibble 0x2 rest on decision D1 (log entry 10), the branch rows on
decision D3 (log entry 7), the shift and rotate rows on decision D2 (log entry 11). -/
def Obligations.OpcodeMapOfAllFirstWords : Prop :=
  ∀ (w d : Byte),
    let i := decodeWords w d
    let n := w.toNat
    let a : RegSel := if n / 8 % 2 = 1 then .ix else .acc
    let b : OperandB :=
      match n % 8 with
      | 0 => .acc | 1 => .ix | 2 => .imm false d | 3 => .imm true d
      | 4 => .mem .absText d | 5 => .mem .absData d | 6 => .mem .ixText d | _ => .mem .ixData d
    (n ≤ 0x07 → i = .nop (BitVec.ofNat 3 n)) ∧
    (n = 0x08 ∨ n = 0x09 → i = .hlt (BitVec.ofNat 1 n)) ∧
    (n = 0x0A → i = .jal d) ∧
    (n = 0x0B → i = .jr) ∧
    (0x0C ≤ n ∧ n ≤ 0x0F → i = .hltHigh (BitVec.ofNat 2 n)) ∧
    (0x10 ≤ n ∧ n ≤ 0x17 → i = .out (BitVec.ofNat 3 n)) ∧
    (0x18 ≤ n ∧ n ≤ 0x1F → i = .inp (BitVec.ofNat 3 n)) ∧
    (0x20 ≤ n ∧ n ≤ 0x27 → i = .rcf (BitVec.ofNat 3 n)) ∧
    (0x28 ≤ n ∧ n ≤ 0x2F → i = .scf (BitVec.ofNat 3 n)) ∧
    (n = 0x30 → i = .ba d) ∧ (n = 0x31 → i = .bnz d) ∧ (n = 0x32 → i = .bzp d) ∧
    (n = 0x33 → i = .bp d) ∧ (n = 0x34 → i = .bni d) ∧ (n = 0x35 → i = .bnc d) ∧
    (n = 0x36 → i = .bge d) ∧ (n = 0x37 → i = .bgt d) ∧ (n = 0x38 → i = .bvf d) ∧
    (n = 0x39 → i = .bz d) ∧ (n = 0x3A → i = .bn d) ∧ (n = 0x3B → i = .bzn d) ∧
    (n = 0x3C → i = .bno d) ∧ (n = 0x3D → i = .bc d) ∧ (n = 0x3E → i = .blt d) ∧
    (n = 0x3F → i = .ble d) ∧
    (n = 0x40 ∨ n = 0x48 → i = .sra a) ∧ (n = 0x41 ∨ n = 0x49 → i = .sla a) ∧
    (n = 0x42 ∨ n = 0x4A → i = .srl a) ∧ (n = 0x43 ∨ n = 0x4B → i = .sll a) ∧
    (n = 0x44 ∨ n = 0x4C → i = .rra a) ∧ (n = 0x45 ∨ n = 0x4D → i = .rla a) ∧
    (n = 0x46 ∨ n = 0x4E → i = .rrl a) ∧ (n = 0x47 ∨ n = 0x4F → i = .rll a) ∧
    (0x50 ≤ n ∧ n ≤ 0x5F → i = .illegal (BitVec.ofNat 4 n)) ∧
    (0x60 ≤ n ∧ n ≤ 0x6F → i = .ld a b) ∧
    (0x70 ≤ n ∧ n ≤ 0x7F ∧ 4 ≤ n % 8 → i = .st a (BitVec.ofNat 3 n) d) ∧
    (0x70 ≤ n ∧ n ≤ 0x7F ∧ n % 8 < 4 → i = .stIllegalMode a (BitVec.ofNat 3 n) d) ∧
    (0x80 ≤ n ∧ n ≤ 0x8F → i = .sbc a b) ∧
    (0x90 ≤ n ∧ n ≤ 0x9F → i = .adc a b) ∧
    (0xA0 ≤ n ∧ n ≤ 0xAF → i = .sub a b) ∧
    (0xB0 ≤ n ∧ n ≤ 0xBF → i = .add a b) ∧
    (0xC0 ≤ n ∧ n ≤ 0xCF → i = .eor a b) ∧
    (0xD0 ≤ n ∧ n ≤ 0xDF → i = .or a b) ∧
    (0xE0 ≤ n ∧ n ≤ 0xEF → i = .and a b) ∧
    (0xF0 ≤ n → i = .cmp a b)

/-- Words written out bit by bit as the spec encodes them (30_encoding.md, R53, R55; R66 is an inference that the spec
marks as its own). That 0x4C is RRA IX rests on decision D2 (log entry 11), that 0x31 is BNZ on decision D3 (log
entry 7): both are taken from general knowledge and not from the manual. -/
def Obligations.SampleWordsDecode : Prop :=
  decode [0b10111111, 0x10] = .ok (.add .ix (.mem .ixData 0x10), []) ∧
  decode [0b01100010, 0x05] = .ok (.ld .acc (.imm false 0x05), []) ∧
  decode [0b00001010, 0x10] = .ok (.jal 0x10, []) ∧
  decode [0b01001100, 0xFF] = .ok (.rra .ix, [0xFF]) ∧
  decode [0b01110101, 0x10] = .ok (.st .acc 5 0x10, []) ∧
  decode [0b00110001, 0x04] = .ok (.bnz 0x04, []) ∧
  decode [0b00001111] = .ok (.hltHigh 3, [])

/-! ## The step driver -/

/-- R190, R70, R71: where the words at `pc` are in range and decode to `i`, the step is `exec i` on the state
with `pc` past the words, `mar` at the last of them and `ir` equal to the first. That the second word is fetched
before the meaning runs is the model's inference from R39 and R80 (log entry 22). -/
def Obligations.StepRunsTheDecodedInstruction : Prop :=
  ∀ (s : State) (i : Instr),
    (s.canFetchOne → decode [s.opcode] = .ok (i, []) → step s = exec i s.afterOne) ∧
    (s.canFetchTwo → decode [s.opcode, s.secondWord] = .ok (i, []) → step s = exec i s.afterTwo)

/-- R203, first row: an opcode fetch out of range changes nothing but `run` and the status. That it is a fault
is decision D11 (log entry 13). -/
def Obligations.OpcodeFetchOutOfRangeHalts : Prop :=
  ∀ (s : State), s.run = .running → s.params.memSize ≤ s.pc.toNat →
    step s = .next (s.stopped (.addressOutOfRange s.pc.toNat))

/-- R203, second row, and R205: an instruction whose second word is out of range halts after the opcode
fetch with nothing of it done, whatever the instruction is (an ST in an illegal mode among them). The fault
is decision D11 (log entry 13), the priority decision D23 (log entry 17). -/
def Obligations.SecondWordFetchOutOfRangeHalts : Prop :=
  ∀ (s : State), s.canFetchOne → needsSecond s.opcode = true →
    s.params.memSize ≤ s.pc.toNat + 1 →
    step s = .next (s.afterOne.stopped (.addressOutOfRange (s.pc.toNat + 1)))

/-- Decision D13 (log entry 5): a step asked of a halted machine changes no field but the status it returns. -/
def Obligations.StepOfAHaltedMachineChangesNothing : Prop :=
  ∀ (s : State), s.run = .halted →
    step s = .next { s with status := some (.halted .alreadyHalted) }

/-- R193, R230: every requested step ends with an outcome. The model's outcome is always a next state: that
a fault of the manual is a next state, not a Host fault, is the model's choice (log entry 4). -/
def Obligations.EveryStepAnswersANextState : Prop :=
  ∀ (s : State), ∃ t, step s = .next t

/-- The invariant of Safety.lean is kept by every step, from every state that meets it. The bound on
`mar` rests on decision D12 (log entry 14), that on `pc` on the decisions D10 and D11 (log entries 12 and 13), and the
last clause is about the model's own field `status` (log entry 3). -/
def Obligations.EveryStepKeepsTheInvariant : Prop :=
  ∀ (s t : State), s.Inv → step s = .next t → t.Inv

/-- The reset state meets the invariant. Its parameters are the defaults (log entry 6), its memory lists nothing (log
entry 1), `mar` and the run register are as decisions D13 and D14 say (log entry 26). -/
def Obligations.ResetMeetsTheInvariant : Prop := State.reset.Inv

/-- Every state that resets, steps and actions of the environment lead to meets the invariant. That the environment
acts between steps is decision D19 (log entry 21); the invariant's own log entries are those of
EveryStepKeepsTheInvariant. -/
def Obligations.ReachableStatesMeetTheInvariant : Prop :=
  ∀ (s : State), Reachable s → s.Inv

/-- R207: no instruction and no number of steps leaves the halted state, and no field but the status changes; a
reset does leave it, and keeps nothing of the run before (the input latch is the environment's, the
parameters are fixed). That a step asked of a halted machine answers a next state, with nothing changed but the
status, is decision D13 (log entry 5): R194 leaves a model free to give it none. -/
def Obligations.OnlyResetLeavesTheHaltedState : Prop :=
  (∀ (i : Instr) (s t : State), s.run = .halted → exec i s = .next t → t.run = .halted) ∧
  (∀ (k : Nat) (s : State), s.run = .halted →
    ∃ t, Host.Core.run core k s = .next t ∧ t.run = .halted ∧ t = { s with status := t.status }) ∧
  (∀ (image : List Byte) (s s' : State),
    (s.resetWith image).run = .running ∧
    (s.ibuf = s'.ibuf → s.params = s'.params → s.resetWith image = s'.resetWith image))

/-- R206: a step that ends in a fault has written no general register, no flag, no latch and no memory word;
only `pc`, `mar` and `ir` (by the fetches), `run` and the status differ, and the machine is halted. Which states are
fault states is decision D17 (log entry 4). -/
def Obligations.FaultsArePrecise : Prop :=
  ∀ (s t : State) (r : HaltReason), step s = .next t → t.status = some (.halted r) →
    r.isFault = true →
    t = { s with pc := t.pc, mar := t.mar, ir := t.ir, run := .halted, status := some (.halted r) }

/-- R200 to R203: what each fault reason says about the step that reports it: the word or the access that caused
it, and `pc`, `mar` and `ir` where the machine stopped. An access out of range is that of the opcode, that of
the second word or, with legal parameters, that of the operand in mode 7. That the second word of an ST in an
illegal mode is fetched first is decision D15 (log entry 17), that out of range is a fault and no address wraps
decision D11 (log entry 13), that the operand access leaves `mar` alone decision D12 (log entry 14). -/
def Obligations.FaultReasonsNameTheirCause : Prop :=
  ∀ (s t : State), step s = .next t →
    (∀ w, t.status = some (.halted (.illegalOpcode w)) →
      w = s.opcode ∧ w.toNat / 16 = 5 ∧ t.ir = w ∧ t.pc = s.pc + 1 ∧ t.mar = s.pc) ∧
    (∀ w, t.status = some (.halted (.illegalStoreMode w)) →
      w = s.opcode ∧ w.toNat / 16 = 7 ∧ w.toNat % 8 < 4 ∧ t.ir = w ∧ t.pc = s.pc + 2 ∧
        t.mar = s.pc + 1) ∧
    (∀ x, t.status = some (.halted (.addressOutOfRange x)) → s.params.memSize ≤ x ∧
      (s.params.legal = true →
        (x = s.pc.toNat ∧ t.pc = s.pc ∧ t.mar = s.mar ∧ t.ir = s.ir) ∨
        (s.pc.toNat < s.params.memSize ∧ needsSecond s.opcode = true ∧ x = s.pc.toNat + 1 ∧
          t.pc = s.pc + 1 ∧ t.mar = s.pc ∧ t.ir = s.opcode) ∨
        (s.pc.toNat < s.params.memSize ∧ s.pc.toNat + 1 < s.params.memSize ∧
          6 ≤ s.opcode.toNat / 16 ∧ s.opcode.toNat % 8 = 7 ∧
          x = 0x100 + s.secondWord.toNat + s.ix.toNat ∧
          t.pc = s.pc + 2 ∧ t.mar = s.pc + 1 ∧ t.ir = s.opcode)))

/-- R191: a step of a running machine either continues and stays running, or halts with HLT or a fault. -/
def Obligations.RunningStepContinuesOrHaltsWithAReason : Prop :=
  ∀ (s t : State), s.run = .running → step s = .next t →
    (t.run = .running ∧ t.status = some .continue) ∨
    (t.run = .halted ∧ ∃ r, t.status = some (.halted r) ∧ (r = .hlt ∨ r.isFault = true))

/-- R12: nothing but `mar` itself depends on `mar`, and after an opcode fetch not even that. That operand accesses
leave `mar` alone is decision D12 (log entry 14). -/
def Obligations.MarIsNeverObserved : Prop :=
  ∀ (s t : State) (m : Addr16), step s = .next t →
    ∃ u, step { s with mar := m } = .next u ∧ u = { t with mar := u.mar } ∧ (s.canFetchOne → u = t)

/-- The model's own output field `status` is read by no step (log entry 3). -/
def Obligations.StatusIsNeverRead : Prop :=
  ∀ (s : State) (x : Option StepStatus), step { s with status := x } = step s

/-! ## Frames over all instructions -/

/-- R12, R13: after the fetches no instruction writes `mar` or `ir`; and none changes the parameters. That operand
accesses, ST's among them, leave `mar` alone is decision D12 (log entry 14); the parameters are the model's own
field (log entry 6). -/
def Obligations.NoInstructionWritesMarIrOrParams : Prop :=
  ∀ (i : Instr) (s t : State), exec i s = .next t →
    t.mar = s.mar ∧ t.ir = s.ir ∧ t.params = s.params

/-- R33: ST is the only instruction that writes memory. -/
def Obligations.OnlyStoresWriteMemory : Prop :=
  ∀ (i : Instr) (s t : State), i.wellFormed = true → (∀ a b d, i ≠ .st a b d) →
    exec i s = .next t → ∀ x, t.mem.read x = s.mem.read x

/-- The table of R15: the flags each instruction keeps or clears; where a row's flag is computed, the statement
of the instruction says it. A step that does not continue writes no flag. That LD and ST write none is
decision D7 (log entry 15); RCF and SCF are decision D8 (log entry 10); that RRA, RRL and RLL clear
overflow is decision D5 (log entry 16). -/
def Obligations.FlagsChangeOnlyByTheTable : Prop :=
  ∀ (i : Instr) (s t : State), exec i s = .next t →
    (t.status ≠ some .continue → t.flags = s.flags) ∧
    match i with
    | .add _ _ | .adc _ _ | .sub _ _ | .sbc _ _ | .cmp _ _ | .sla _ | .rla _ => True
    | .and _ _ | .or _ _ | .eor _ _ =>
      t.flags.cf = s.flags.cf ∧ (t.status = some .continue → t.flags.vf = false)
    | .sra _ | .srl _ | .sll _ | .rra _ | .rrl _ | .rll _ => t.flags.vf = false
    | .rcf _ => t.flags = { s.flags with cf := false }
    | .scf _ => t.flags = { s.flags with cf := true }
    | _ => t.flags = s.flags

/-- The table of R10: which general register an instruction may write. -/
def Obligations.RegistersChangeOnlyByTheTable : Prop :=
  ∀ (i : Instr) (s t : State), exec i s = .next t →
    match i with
    | .ld .acc _ | .add .acc _ | .adc .acc _ | .sub .acc _ | .sbc .acc _
    | .and .acc _ | .or .acc _ | .eor .acc _
    | .sra .acc | .sla .acc | .srl .acc | .sll .acc
    | .rra .acc | .rla .acc | .rrl .acc | .rll .acc
    | .jal _ | .inp _ => t.ix = s.ix
    | .ld .ix _ | .add .ix _ | .adc .ix _ | .sub .ix _ | .sbc .ix _
    | .and .ix _ | .or .ix _ | .eor .ix _
    | .sra .ix | .sla .ix | .srl .ix | .sll .ix
    | .rra .ix | .rla .ix | .rrl .ix | .rll .ix => t.acc = s.acc
    | _ => t.acc = s.acc ∧ t.ix = s.ix

/-- R17, R18: OUT is the only instruction that touches the output latch, IN the only one that touches the input
latch; no step clears `obuf.flag`, sets `ibuf.flag` or writes `ibuf.buf`. -/
def Obligations.LatchesChangeOnlyByOutAndIn : Prop :=
  (∀ (i : Instr) (s t : State), exec i s = .next t →
    ((∀ x, i ≠ .out x) → t.obuf = s.obuf) ∧ ((∀ x, i ≠ .inp x) → t.ibuf = s.ibuf)) ∧
  (∀ (s t : State), step s = .next t →
    (s.obuf.flag = true → t.obuf.flag = true) ∧
    (t.ibuf.flag = true → s.ibuf.flag = true) ∧ t.ibuf.buf = s.ibuf.buf)

/-- R11: after the fetches only a taken branch, JAL and JR change `pc`, each to a zero-extended 8-bit value. That
nothing else reduces `pc` is decision D10 (log entry 12), the zero extension of JR is decision D16 (log entry 18). -/
def Obligations.PcChangesOnlyByControlTransfers : Prop :=
  ∀ (i : Instr) (s t : State), exec i s = .next t →
    match i with
    | .ba k | .bnz k | .bzp k | .bp k | .bni k | .bnc k | .bge k | .bgt k
    | .bvf k | .bz k | .bn k | .bzn k | .bno k | .bc k | .blt k | .ble k =>
      t.pc = s.pc ∨ t.pc.toNat = k.toNat
    | .jal k => t.pc.toNat = k.toNat
    | .jr => t.pc.toNat = s.acc.toNat
    | _ => t.pc = s.pc

/-! ## Operands and memory -/

/-- R75, R76: the value of operand B in every mode. The three modes 4 to 6 are in range for every legal
`MEM_SIZE`; mode 7 faults where its address is not. No sum wraps (decision D11, log entry 13). -/
def Obligations.OperandBInEveryMode : Prop :=
  ∀ (s : State), s.params.legal = true →
    readB .acc s = .ok s.acc ∧
    readB .ix s = .ok s.ix ∧
    (∀ c d, readB (.imm c d) s = .ok d) ∧
    (∀ d, readB (.mem .absText d) s = .ok (s.mem.read d.toNat)) ∧
    (∀ d, readB (.mem .absData d) s = .ok (s.mem.read (0x100 + d.toNat))) ∧
    (∀ d, readB (.mem .ixText d) s = .ok (s.mem.read (d.toNat + s.ix.toNat))) ∧
    (∀ d, 0x100 + d.toNat + s.ix.toNat < s.params.memSize →
      readB (.mem .ixData d) s = .ok (s.mem.read (0x100 + d.toNat + s.ix.toNat))) ∧
    (∀ d, s.params.memSize ≤ 0x100 + d.toNat + s.ix.toNat →
      readB (.mem .ixData d) s = .error (.addressOutOfRange (0x100 + d.toNat + s.ix.toNat)))

/-- R72, R73: operand A is the accumulator or the index register for the read and the write alike, and a
write changes the selected register only. -/
def Obligations.OperandASelectsOneRegister : Prop :=
  ∀ (s : State) (v : Byte),
    readA .acc s = s.acc ∧ readA .ix s = s.ix ∧
    writeA .acc v s = { s with acc := v } ∧ writeA .ix v s = { s with ix := v }

/-- R32, R33: a write in range is read back, changes no other address and no other field, and keeps the canonical
form. An access out of range is the fault, with nothing read or written (decision D11, log entry 13). -/
def Obligations.MemoryAccessIsBounded : Prop :=
  ∀ (s : State) (x : Nat) (v : Byte), s.mem.wf = true →
    (x < s.params.memSize →
      memRead x s = .ok (s.mem.read x) ∧
      ∃ t, memWrite x v s = .ok t ∧ t = { s with mem := t.mem } ∧ memRead x t = .ok v ∧
        (∀ y, y ≠ x → memRead y t = memRead y s) ∧ t.mem.wf = true) ∧
    (s.params.memSize ≤ x →
      memRead x s = .error (.addressOutOfRange x) ∧ memWrite x v s = .error (.addressOutOfRange x))

/-! ## Load and store -/

/-- R90: LD writes operand B into operand A and nothing else; no flag (decision D7, log entry 15). -/
def Obligations.LoadResult : Prop :=
  ∀ (a : RegSel) (b : OperandB) (s : State) (v : Byte), readB b s = .ok v →
    exec (.ld a b) s = .next (writeA a v s).done

/-- R91, R55, R75: ST in the modes 4 to 7 writes operand A to the effective address, whose number the modes give,
and changes no other byte of memory and no other field. That ST keeps the flags is decision D7 (log entry 15),
that `d + ix` does not wrap is decision D11 (log entry 13). -/
def Obligations.StoreResult : Prop :=
  ∀ (a : RegSel) (b : BitVec 3) (d : Byte) (s : State) (x : Nat), s.mem.wf = true →
    (b = 4 ∧ x = d.toNat ∨ b = 5 ∧ x = 0x100 + d.toNat ∨ b = 6 ∧ x = d.toNat + s.ix.toNat ∨
      b = 7 ∧ x = 0x100 + d.toNat + s.ix.toNat) →
    x < s.params.memSize →
    ∃ t, exec (.st a b d) s = .next t ∧ t = { s with mem := t.mem, status := some .continue } ∧
      t.mem.read x = readA a s ∧ ∀ y, y ≠ x → t.mem.read y = s.mem.read y

/-- R92: ST in the modes 0 to 3 halts with IllegalStoreMode, which reports the first word, and writes nothing. That
its second word was fetched before is decision D15 (log entry 17). -/
def Obligations.StoreInAnIllegalModeHalts : Prop :=
  ∀ (a : RegSel) (b : BitVec 3) (d : Byte) (s : State), b.toNat < 4 →
    exec (.stIllegalMode a b d) s = .next (s.stopped (.illegalStoreMode s.ir))

/-- R203, third and fourth row: an operand access of mode 7 out of range halts the machine; no register, no
flag and no memory word is written (decision D11, log entry 13). -/
def Obligations.IndexedDataAccessOutOfRangeHalts : Prop :=
  ∀ (a : RegSel) (d : Byte) (s : State), s.params.memSize ≤ 0x100 + d.toNat + s.ix.toNat →
    ∀ i ∈ [Instr.ld a (.mem .ixData d), .add a (.mem .ixData d), .adc a (.mem .ixData d),
        .sub a (.mem .ixData d), .sbc a (.mem .ixData d), .cmp a (.mem .ixData d),
        .and a (.mem .ixData d), .or a (.mem .ixData d), .eor a (.mem .ixData d), .st a 7 d],
      exec i s = .next (s.stopped (.addressOutOfRange (0x100 + d.toNat + s.ix.toNat)))

/-! ## Arithmetic and logic -/

/-- R103, R111 item 1: ADD in closed form. The closed form is an inference that the spec marks as its own. -/
def Obligations.AddResultAndFlags : Prop :=
  ∀ (a : RegSel) (b : OperandB) (s : State) (v : Byte), readB b s = .ok v →
    ∃ (r : Byte) (f : Flags),
      exec (.add a b) s = .next { writeA a r s with flags := f, status := some .continue } ∧
      r.toNat = ((readA a s).toNat + v.toNat) % 256 ∧
      (f.cf = true ↔ 256 ≤ (readA a s).toNat + v.toNat) ∧
      (f.vf = true ↔ ¬ inSignedRange ((readA a s).toInt + v.toInt)) ∧
      (f.nf = true ↔ 128 ≤ r.toNat) ∧ (f.zf = true ↔ r.toNat = 0)

/-- R104, R112: ADC in closed form. That the carry is folded into operand B first is decision D6 (log entry 9). -/
def Obligations.AddWithCarryResultAndFlags : Prop :=
  ∀ (a : RegSel) (b : OperandB) (s : State) (v : Byte), readB b s = .ok v →
    let c : Nat := if s.flags.cf then 1 else 0
    let bc : Byte := BitVec.ofNat 8 (v.toNat + c)
    ∃ (r : Byte) (f : Flags),
      exec (.adc a b) s = .next { writeA a r s with flags := f, status := some .continue } ∧
      r.toNat = ((readA a s).toNat + v.toNat + c) % 256 ∧
      (f.cf = true ↔ 256 ≤ (readA a s).toNat + bc.toNat) ∧
      (f.vf = true ↔ ¬ inSignedRange ((readA a s).toInt + bc.toInt)) ∧
      (f.nf = true ↔ 128 ≤ r.toNat) ∧ (f.zf = true ↔ r.toNat = 0)

/-- R105, R111 items 2 and 3: SUB in closed form, with the corners `b = 0` (carry) and `b = 0x80` (overflow). The
closed form is an inference that the spec marks as its own. -/
def Obligations.SubtractResultAndFlags : Prop :=
  ∀ (a : RegSel) (b : OperandB) (s : State) (v : Byte), readB b s = .ok v →
    ∃ (r : Byte) (f : Flags),
      exec (.sub a b) s = .next { writeA a r s with flags := f, status := some .continue } ∧
      r.toNat = ((readA a s).toNat + 256 - v.toNat) % 256 ∧
      (f.cf = true ↔ v.toNat ≤ (readA a s).toNat ∧ v ≠ 0) ∧
      (f.vf = true ↔
        if v = 0x80 then 128 ≤ (readA a s).toNat
        else ¬ inSignedRange ((readA a s).toInt - v.toInt)) ∧
      (f.nf = true ↔ 128 ≤ r.toNat) ∧ (f.zf = true ↔ r.toNat = 0)

/-- R106, R112: SBC in closed form. The fold of the carry is decision D6 (log entry 9). -/
def Obligations.SubtractWithCarryResultAndFlags : Prop :=
  ∀ (a : RegSel) (b : OperandB) (s : State) (v : Byte), readB b s = .ok v →
    let c : Nat := if s.flags.cf then 1 else 0
    let bc : Byte := BitVec.ofNat 8 (v.toNat + c)
    ∃ (r : Byte) (f : Flags),
      exec (.sbc a b) s = .next { writeA a r s with flags := f, status := some .continue } ∧
      r.toNat = ((readA a s).toNat + 512 - v.toNat - c) % 256 ∧
      (f.cf = true ↔ bc.toNat ≤ (readA a s).toNat ∧ bc ≠ 0) ∧
      (f.vf = true ↔
        if bc = 0x80 then 128 ≤ (readA a s).toNat
        else ¬ inSignedRange ((readA a s).toInt - bc.toInt)) ∧
      (f.nf = true ↔ 128 ≤ r.toNat) ∧ (f.zf = true ↔ r.toNat = 0)

/-- R107: CMP writes the flags that SUB would write, and no register. -/
def Obligations.CompareWritesOnlyTheFlagsOfSubtract : Prop :=
  ∀ (a : RegSel) (b : OperandB) (s : State) (v : Byte), readB b s = .ok v →
    ∃ (r : Byte) (f : Flags),
      exec (.sub a b) s = .next { writeA a r s with flags := f, status := some .continue } ∧
      exec (.cmp a b) s = .next { s with flags := f, status := some .continue }

/-- R108, R109, R110: the logic instructions bit by bit; overflow cleared, carry kept. -/
def Obligations.LogicResultsAndFlags : Prop :=
  ∀ (a : RegSel) (b : OperandB) (s : State) (v : Byte), readB b s = .ok v →
    ∀ p ∈ [(Instr.and a b, Bool.and), (.or a b, Bool.or), (.eor a b, Bool.xor)],
      ∃ r : Byte,
        exec p.1 s = .next { writeA a r s with
          flags := { cf := s.flags.cf, vf := false, nf := r.getLsbD 7, zf := decide (r.toNat = 0) }
          status := some .continue } ∧
        ∀ k, k < 8 → r.getLsbD k = p.2 ((readA a s).getLsbD k) (v.getLsbD k)

/-- R111 item 5: ADD of a value and then SUB of the same value restore the register. The spec marks it as its own
inference. -/
def Obligations.AddThenSubtractRestores : Prop :=
  ∀ (a : RegSel) (c c' : Bool) (d : Byte) (s : State),
    ∃ t u, exec (.add a (.imm c d)) s = .next t ∧ exec (.sub a (.imm c' d)) t = .next u ∧
      u = { s with flags := u.flags, status := u.status }

/-- R104, R106, R112: with the carry clear, ADC is ADD and SBC is SUB (decision D6, log entry 9). -/
def Obligations.CarryClearMakesAdcAddAndSbcSub : Prop :=
  ∀ (a : RegSel) (b : OperandB) (s : State), s.flags.cf = false →
    exec (.adc a b) s = exec (.add a b) s ∧ exec (.sbc a b) s = exec (.sub a b) s

/-- R107, R111, R148, R149, R151, R155 to R157: what the branches say after CMP of `x` and `v`, with the corners
`v = 0` and `v = 0x80`. Which code stands for which predicate is decision D3 (log entry 7); R111's facts are
inferences that the spec marks as its own. -/
def Obligations.BranchesAfterCompareOrderTheOperands : Prop :=
  ∀ (a : RegSel) (b : OperandB) (s t : State) (v k : Byte),
    s.params.ccTable = defaultCcTable → readB b s = .ok v → exec (.cmp a b) s = .next t →
    let x := readA a s
    let goes := fun (i : Instr) (p : Prop) =>
      (p → exec i t = .next { t with pc := zext16 k }) ∧ (¬ p → exec i t = .next t)
    goes (.bz k) (x = v) ∧
    goes (.bnz k) (x ≠ v) ∧
    (v ≠ 0 → goes (.bc k) (v.toNat ≤ x.toNat) ∧ goes (.bnc k) (x.toNat < v.toNat)) ∧
    (v = 0 → goes (.bc k) False ∧ goes (.bnc k) True) ∧
    (v ≠ 0x80 → goes (.blt k) (x.toInt < v.toInt) ∧ goes (.ble k) (x.toInt ≤ v.toInt) ∧
      goes (.bge k) (v.toInt ≤ x.toInt) ∧ goes (.bgt k) (v.toInt < x.toInt)) ∧
    (v = 0x80 → goes (.blt k) True ∧ goes (.ble k) True ∧ goes (.bge k) False ∧ goes (.bgt k) False)

/-- R113: the eight ALU instructions are format M with every selector and every mode; none writes memory, none
changes `pc` after the fetches, and in the modes 0 and 1 they have one word and read no memory. -/
def Obligations.AluInstructionsTakeEveryOperand : Prop :=
  (∀ x : BitVec 1, ∃ a : RegSel, a.bit = x) ∧ (∀ x : BitVec 3, ∃ b : OperandB, b.bits = x) ∧
  ∀ (a : RegSel) (b : OperandB),
    ∀ p ∈ [((0x8 : BitVec 4), Instr.sbc a b), (0x9, .adc a b), (0xA, .sub a b), (0xB, .add a b),
        (0xC, .eor a b), (0xD, .or a b), (0xE, .and a b), (0xF, .cmp a b)],
      p.2.wellFormed = true ∧ encode p.2 = wordM p.1 a b.bits :: b.second ∧
      (∀ (s t : State), exec p.2 s = .next t → t.mem = s.mem ∧ t.pc = s.pc) ∧
      (b = .acc ∨ b = .ix → (encode p.2).length = 1 ∧
        ∀ (s : State) (m : Memory), ∃ t, exec p.2 s = .next t ∧
          exec p.2 { s with mem := m } = .next { t with mem := m })

/-! ## Shifts and rotates -/

/-- R121 to R124: the four shifts in closed form. -/
def Obligations.ShiftResultsAndFlags : Prop :=
  ∀ (a : RegSel) (s : State),
    let v := readA a s
    let gives := fun (i : Instr) (r : Byte) (c o : Bool) =>
      exec i s = .next { writeA a r s with
        flags := { cf := c, vf := o, nf := decide (128 ≤ r.toNat), zf := decide (r.toNat = 0) }
        status := some .continue }
    (∃ r, gives (.sra a) r (decide (v.toNat % 2 = 1)) false ∧ r.toInt = v.toInt / 2) ∧
    (∃ r o, gives (.sla a) r (decide (128 ≤ v.toNat)) o ∧ r.toNat = 2 * v.toNat % 256 ∧
      (o = true ↔ ¬ inSignedRange (2 * v.toInt))) ∧
    (∃ r, gives (.srl a) r (decide (v.toNat % 2 = 1)) false ∧ r.toNat = v.toNat / 2) ∧
    (∃ r, gives (.sll a) r (decide (128 ≤ v.toNat)) false ∧ r.toNat = 2 * v.toNat % 256)

/-- R126, R128, R130: the rotates to the left; their carry and overflow are decision D5 (log entry 16). -/
def Obligations.RotateLeftResultsAndFlags : Prop :=
  ∀ (a : RegSel) (s : State),
    let v := readA a s
    let gives := fun (i : Instr) (r : Byte) (c o : Bool) =>
      exec i s = .next { writeA a r s with
        flags := { cf := c, vf := o, nf := decide (128 ≤ r.toNat), zf := decide (r.toNat = 0) }
        status := some .continue }
    ∃ r o, gives (.rla a) r (decide (128 ≤ v.toNat)) o ∧
      gives (.rll a) r (decide (128 ≤ v.toNat)) false ∧
      r.toNat = 2 * v.toNat % 256 + v.toNat / 128 ∧
      (o = true ↔ ¬ inSignedRange (2 * v.toInt))

/-- R125, R127, R129: the rotates to the right, with either value of `ROR_FILL` (decision D4, log entry 8); their
carry and overflow are decision D5 (log entry 16). That RRL does as RRA is an inference that the spec marks as its
own. -/
def Obligations.RotateRightResultsAndFlags : Prop :=
  ∀ (a : RegSel) (s : State),
    let v := readA a s
    let gives := fun (i : Instr) (r : Byte) =>
      exec i s = .next { writeA a r s with
        flags :=
          { cf := decide (v.toNat % 2 = 1), vf := false
            nf := decide (128 ≤ r.toNat), zf := decide (r.toNat = 0) }
        status := some .continue }
    ∃ r, gives (.rra a) r ∧ gives (.rrl a) r ∧
      (s.params.rorFill = .bit0 → r.toNat = v.toNat / 2 + 128 * (v.toNat % 2)) ∧
      (s.params.rorFill = .oldCf → r.toNat = v.toNat / 2 + 128 * s.flags.cf.toNat)

/-- R131: eight rotates restore the operand with `ROR_FILL = bit0` (decision D4, log entry 8), and what eight
shifts leave. Nothing but operand A, the flags and the status differs. The spec marks R131 as its own inference. -/
def Obligations.EightShiftsOrRotates : Prop :=
  ∀ (a : RegSel) (s : State),
    let ends := fun (i : Instr) (r : Byte) =>
      ∃ t, execTimes i 8 s = .next t ∧
        t = { writeA a r s with flags := t.flags, status := some .continue }
    (s.params.rorFill = .bit0 → ends (.rra a) (readA a s) ∧ ends (.rrl a) (readA a s)) ∧
    ends (.rla a) (readA a s) ∧ ends (.rll a) (readA a s) ∧
    ends (.srl a) 0 ∧ ends (.sla a) 0 ∧ ends (.sll a) 0 ∧
    ends (.sra a) (if 128 ≤ (readA a s).toNat then 0xFF else 0)

/-- R125: with `ROR_FILL = old_cf` (the other reading of decision D4, log entry 8) nine rotates to the right restore
the operand and the carry. -/
def Obligations.NineRotatesThroughCarryRestore : Prop :=
  ∀ (a : RegSel) (s : State), s.params.rorFill = .oldCf →
    ∀ i ∈ [Instr.rra a, .rrl a], ∃ t, execTimes i 9 s = .next t ∧ t.flags.cf = s.flags.cf ∧
      t = { s with flags := t.flags, status := some .continue }

/-! ## Branches, call and return -/

/-- R140, R141: with any `CC_TABLE`, the branch with the condition code `cc` goes to its zero-extended target where
the table's predicate holds, falls through else, and changes nothing but `pc` and the status. -/
def Obligations.BranchesWithAnyConditionTable : Prop :=
  ∀ (s : State) (t : Byte),
    ∀ p ∈ [(0, Instr.ba t), (1, .bnz t), (2, .bzp t), (3, .bp t), (4, .bni t), (5, .bnc t),
        (6, .bge t), (7, .bgt t), (8, .bvf t), (9, .bz t), (10, .bn t), (11, .bzn t), (12, .bno t),
        (13, .bc t), (14, .blt t), ((15 : Fin 16), .ble t)],
      exec p.2 s = .next { s with
        pc := if predicateHolds s.params.ccTable[p.1] s then zext16 t else s.pc
        status := some .continue }

/-- R140: a step of any branch consumes its second word, taken or not, and writes `pc`, `mar`, `ir` and the
status only; the one fault it can raise is the fetch of that word out of range. That out of range is a fault is decision D11 (log
entry 13). The address of the second word does not wrap, at `MEM_SIZE` 0x10000 neither; `pc` itself is 16 bits wide
(log entry 6). -/
def Obligations.BranchStep : Prop :=
  ∀ (s : State), s.canFetchOne → s.opcode.toNat / 16 = 3 →
    (s.pc.toNat + 1 < s.params.memSize →
      step s = .next { s with
        pc := if condHolds (Fin.ofNat 16 s.opcode.toNat) s then zext16 s.secondWord else s.pc + 2
        mar := s.pc + 1, ir := s.opcode, status := some .continue }) ∧
    (s.params.memSize ≤ s.pc.toNat + 1 →
      step s = .next { s with
        pc := s.pc + 1, mar := s.pc, ir := s.opcode, run := .halted
        status := some (.halted (.addressOutOfRange (s.pc.toNat + 1))) })

/-- R141 to R157: with the table of this hardware, each branch is taken exactly where its predicate holds. The
numbers of the codes and the predicate of BVF are decision D3 (log entry 7), the polarity of the two
latch predicates is decision D22 (log entry 19). -/
def Obligations.BranchesWithTheDefaultTable : Prop :=
  ∀ (s : State) (t : Byte), s.params.ccTable = defaultCcTable →
    let f := s.flags
    ∀ p ∈ [(Instr.ba t, true), (.bnz t, !f.zf), (.bzp t, !f.nf), (.bp t, !f.nf && !f.zf),
        (.bni t, !s.ibuf.flag), (.bnc t, !f.cf), (.bge t, f.vf == f.nf),
        (.bgt t, f.vf == f.nf && !f.zf), (.bvf t, f.vf), (.bz t, f.zf), (.bn t, f.nf),
        (.bzn t, f.nf || f.zf), (.bno t, s.obuf.flag), (.bc t, f.cf), (.blt t, f.vf != f.nf),
        (.ble t, f.vf != f.nf || f.zf)],
      exec p.1 s = .next { s with
        pc := if p.2 then zext16 t else s.pc
        status := some .continue }

/-- R170, R171: JAL saves the low 8 bits of the return address in the accumulator and jumps; JR jumps to the
accumulator. The truncation is decision D16 (log entry 18). -/
def Obligations.JumpAndLinkAndJumpRegister : Prop :=
  ∀ (s : State) (t : Byte),
    (∃ r : Byte, r.toNat = s.pc.toNat % 256 ∧
      exec (.jal t) s = .next { s with acc := r, pc := zext16 t, status := some .continue }) ∧
    exec .jr s = .next { s with pc := zext16 s.acc, status := some .continue }

/-- R173: a JAL at an address of at most 0xFD and then a JR at its target return to the word after the JAL, in
two steps that change no flag, no latch and no memory word. The spec marks R173 as its own
inference; the return address in 8 bits is decision D16 (log entry 18). -/
def Obligations.JalThenJrReturns : Prop :=
  ∀ (s : State), s.params.legal = true → s.run = .running → s.pc.toNat ≤ 0xFD →
    s.opcode = 0x0A → s.mem.read s.secondWord.toNat = 0x0B →
    ∃ t u, step s = .next t ∧ t.pc = zext16 s.secondWord ∧ step t = .next u ∧
      u.pc = s.pc + 2 ∧ u.acc.toNat = s.pc.toNat + 2 ∧
      u = { s with acc := u.acc, pc := u.pc, mar := zext16 s.secondWord, ir := 0x0B,
                   status := some .continue }

/-! ## I/O and control -/

/-- R180 to R185, R201: the one-word instructions without operands, whatever their ignored bits. What RCF and SCF do
is decision D8 (log entry 10); that OUT and IN test no flag is decision D18 (log entry 19). -/
def Obligations.ControlAndLatchInstructions : Prop :=
  ∀ (s : State),
    (∀ x, exec (.nop x) s = .next s.done) ∧
    (∀ x, exec (.hlt x) s = .next (s.stopped .hlt)) ∧
    (∀ x, exec (.hltHigh x) s = .next (s.stopped .hlt)) ∧
    (∀ x, exec (.out x) s =
      .next { s with obuf := { buf := s.acc, flag := true }, status := some .continue }) ∧
    (∀ x, exec (.inp x) s =
      .next { s with
        acc := s.ibuf.buf, ibuf := { s.ibuf with flag := false }, status := some .continue }) ∧
    (∀ x, exec (.rcf x) s =
      .next { s with flags := { s.flags with cf := false }, status := some .continue }) ∧
    (∀ x, exec (.scf x) s =
      .next { s with flags := { s.flags with cf := true }, status := some .continue }) ∧
    (∀ x, exec (.illegal x) s = .next (s.stopped (.illegalOpcode s.ir)))

/-- R180: a step of NOP, at every address that exists and with each of its eight first words. -/
def Obligations.NopStep : Prop :=
  ∀ (s : State), s.canFetchOne → s.opcode.toNat ≤ 0x07 →
    step s = .next { s with
      pc := s.pc + 1, mar := s.pc, ir := s.opcode, status := some .continue }

/-- R181: a step of HLT, with each of its six first words; HLT is not a fault. -/
def Obligations.HltStep : Prop :=
  ∀ (s : State), s.canFetchOne → 0x08 ≤ s.opcode.toNat → s.opcode.toNat ≤ 0x0F →
    s.opcode ≠ 0x0A → s.opcode ≠ 0x0B →
    step s = .next { s with
      pc := s.pc + 1, mar := s.pc, ir := s.opcode, run := .halted
      status := some (.halted .hlt) } ∧ HaltReason.hlt.isFault = false

/-- R201: a step of an illegal first word, and the only words that end a step so. -/
def Obligations.IllegalOpcodeStep : Prop :=
  (∀ (s : State), s.canFetchOne → s.opcode.toNat / 16 = 5 →
    ∃ t, step s = .next t ∧
      t = { s with
        pc := s.pc + 1, mar := s.pc, ir := s.opcode, run := .halted
        status := some (.halted (.illegalOpcode s.opcode)) } ∧ t.isFaultState = true) ∧
  (∀ (s t : State) (w : Byte), step s = .next t → t.status = some (.halted (.illegalOpcode w)) →
    s.canFetchOne ∧ w = s.opcode ∧ w.toNat / 16 = 5)

/-- R45, R226: a word stored at the address after a ST is the first word of the next step. The spec marks R45 as its
own inference. -/
def Obligations.StoredWordIsFetchedByTheNextStep : Prop :=
  ∀ (s : State) (a : RegSel) (b : BitVec 3) (d : Byte) (m : MemMode),
    s.mem.wf = true → s.canFetchTwo → (s.pc + 2).toNat < s.params.memSize →
    decode [s.opcode, s.secondWord] = .ok (.st a b d, []) → modeOfField b = .mem m →
    effectiveAddress m d s = (s.pc + 2).toNat →
    ∃ t u, step s = .next t ∧ t.run = .running ∧ step t = .next u ∧ u.ir = readA a s

/-! ## Reset and the host's load -/

/-- R220: reset zeroes every register and flag, installs the image, empties the output latch, sets the driver
running, leaves the input latch alone and keeps nothing else, whatever the state before. Nothing else
leaves the halted state. The zero of `mar` and `ir`, the empty output latch and the running driver are decisions D13
and D14 (log entry 26); the memory is stated for an image of exactly `MEM_SIZE` bytes, the total image of decision
D21 (log entry 27). -/
def Obligations.ResetInstallsTheImage : Prop :=
  (∀ (image : List Byte) (s : State),
    let t := envAct (.reset image) s
    t.acc = 0 ∧ t.ix = 0 ∧ t.pc = 0 ∧ t.mar = 0 ∧ t.ir = 0 ∧
    t.flags = { cf := false, vf := false, nf := false, zf := false } ∧
    t.obuf = { buf := 0, flag := false } ∧ t.run = .running ∧ t.ibuf = s.ibuf ∧
    t.params = s.params ∧
    (image.length = s.params.memSize →
      ∀ x, x < s.params.memSize → some (t.mem.read x) = image[x]?) ∧
    (∀ s' : State, s'.ibuf = s.ibuf → s'.params = s.params → envAct (.reset image) s' = t)) ∧
  (∀ (s t : State), s.run = .halted → step s = .next t → t.run = .halted) ∧
  (∀ (e : EnvAction) (s : State), s.run = .halted → (∀ image, e ≠ .reset image) →
    (envAct e s).run = .halted)

/-- The host's load (log entry 25): the very next step runs the instruction the decoder reads from the host's
number, on the state after its words were fetched. -/
def Obligations.LoadedInstructionRunsNext : Prop :=
  ∀ (s : State) (nbits w : Nat) (i : Instr), s.params.legal = true → s.mem.wf = true →
    decodeTableWord nbits w = some i →
    let p := s.withFetchWord nbits w
    step p = exec i (if needsSecond p.opcode then p.afterTwo else p.afterOne)
end

