-- ==== Sys2Proof/Laws/Memory.lean ====
section
/-! SUPPORT. The laws of the memory list: what a read sees after a write, and that every operation keeps
the canonical form. -/

namespace Sys2Proof.Machine

@[simp] theorem Memory.read_nil (a : Nat) : Memory.read [] a = unlistedByte := rfl

theorem Memory.read_cons (k : Nat) (v : Byte) (m : Memory) (a : Nat) :
    Memory.read ((k, v) :: m) a = if k = a then v else Memory.read m a := rfl

/-! ## The canonical form -/

@[simp] theorem Memory.wfFrom_nil (lo : Nat) : Memory.wfFrom lo [] = true := rfl

theorem Memory.wfFrom_cons {lo k : Nat} {v : Byte} {m : Memory} :
    Memory.wfFrom lo ((k, v) :: m) = true ↔
      lo ≤ k ∧ v ≠ unlistedByte ∧ Memory.wfFrom (k + 1) m = true := by
  simp [Memory.wfFrom, and_assoc]

/-- A lower bound on the addresses may be lowered. -/
theorem Memory.wfFrom_mono {lo lo' : Nat} {m : Memory} (h : lo' ≤ lo)
    (hm : Memory.wfFrom lo m = true) : Memory.wfFrom lo' m = true := by
  cases m with
  | nil => rfl
  | cons c m =>
    obtain ⟨k, v⟩ := c
    rw [Memory.wfFrom_cons] at hm ⊢
    exact ⟨by omega, hm.2⟩

/-- Below the lower bound nothing is listed. -/
theorem Memory.read_below {lo a : Nat} {m : Memory} (hm : Memory.wfFrom lo m = true) (h : a < lo) :
    Memory.read m a = unlistedByte := by
  induction m generalizing lo with
  | nil => rfl
  | cons c m ih =>
    obtain ⟨k, v⟩ := c
    rw [Memory.wfFrom_cons] at hm
    rw [Memory.read_cons, if_neg (by omega)]
    exact ih hm.2.2 (by omega)

theorem Memory.wfFrom_push {lo a : Nat} {v : Byte} {m : Memory} (h : lo ≤ a)
    (hm : Memory.wfFrom (a + 1) m = true) : Memory.wfFrom lo (Memory.push a v m) = true := by
  unfold Memory.push
  split
  · exact Memory.wfFrom_mono (by omega) hm
  · exact Memory.wfFrom_cons.mpr ⟨h, ‹_›, hm⟩

theorem Memory.wfFrom_write {lo a : Nat} {v : Byte} {m : Memory} (h : lo ≤ a)
    (hm : Memory.wfFrom lo m = true) : Memory.wfFrom lo (Memory.write m a v) = true := by
  induction m generalizing lo with
  | nil => exact Memory.wfFrom_push h rfl
  | cons c m ih =>
    obtain ⟨k, w⟩ := c
    rw [Memory.wfFrom_cons] at hm
    simp only [Memory.write]
    split
    · exact Memory.wfFrom_push h (Memory.wfFrom_cons.mpr ⟨by omega, hm.2⟩)
    · split
      · subst a
        exact Memory.wfFrom_push h hm.2.2
      · exact Memory.wfFrom_cons.mpr ⟨hm.1, hm.2.1, ih (by omega) hm.2.2⟩

/-- A write keeps the canonical form. -/
theorem Memory.wf_write {a : Nat} {v : Byte} {m : Memory} (hm : m.wf = true) :
    (m.write a v).wf = true :=
  Memory.wfFrom_write (Nat.zero_le a) hm

theorem Memory.wfFrom_ofBytes (a : Nat) (vs : List Byte) :
    Memory.wfFrom a (Memory.ofBytes a vs) = true := by
  induction vs generalizing a with
  | nil => rfl
  | cons v vs ih => exact Memory.wfFrom_push (Nat.le_refl a) (ih (a + 1))

/-- The memory that a reset installs is in canonical form. -/
theorem Memory.wf_ofImage (n : Nat) (image : List Byte) : (Memory.ofImage n image).wf = true :=
  Memory.wfFrom_ofBytes 0 _

/-! ## Listed addresses exist -/

@[simp] theorem Memory.within_nil (n : Nat) : Memory.within n [] = true := rfl

theorem Memory.within_cons {n k : Nat} {v : Byte} {m : Memory} :
    Memory.within n ((k, v) :: m) = true ↔ k < n ∧ Memory.within n m = true := by
  simp [Memory.within]

theorem Memory.within_push {n a : Nat} {v : Byte} {m : Memory} (h : a < n)
    (hm : m.within n = true) : (Memory.push a v m).within n = true := by
  unfold Memory.push
  split
  · exact hm
  · exact Memory.within_cons.mpr ⟨h, hm⟩

/-- A write to an address that exists lists no address that does not. -/
theorem Memory.within_write {n a : Nat} {v : Byte} {m : Memory} (h : a < n)
    (hm : m.within n = true) : (m.write a v).within n = true := by
  induction m with
  | nil => exact Memory.within_push h rfl
  | cons c m ih =>
    obtain ⟨k, w⟩ := c
    have hc := Memory.within_cons.mp hm
    simp only [Memory.write]
    split
    · exact Memory.within_push h hm
    · split
      · exact Memory.within_push h hc.2
      · exact Memory.within_cons.mpr ⟨hc.1, ih hc.2⟩

theorem Memory.within_ofBytes (n a : Nat) (vs : List Byte) (h : a + vs.length ≤ n) :
    (Memory.ofBytes a vs).within n = true := by
  induction vs generalizing a with
  | nil => rfl
  | cons v vs ih =>
    rw [List.length_cons] at h
    exact Memory.within_push (by omega) (ih (a + 1) (by omega))

/-- The memory that a reset installs lists only addresses that exist. -/
theorem Memory.within_ofImage (n : Nat) (image : List Byte) :
    (Memory.ofImage n image).within n = true :=
  Memory.within_ofBytes n 0 _ (by simp)

/-! ## Reads after writes -/

theorem Memory.read_push_same {a : Nat} {v : Byte} {m : Memory}
    (hm : Memory.wfFrom (a + 1) m = true) : Memory.read (Memory.push a v m) a = v := by
  unfold Memory.push
  split
  · rw [Memory.read_below hm (Nat.lt_succ_self a), ‹v = _›]
  · rw [Memory.read_cons, if_pos rfl]

theorem Memory.read_push_other {a b : Nat} {v : Byte} {m : Memory} (h : b ≠ a) :
    Memory.read (Memory.push a v m) b = Memory.read m b := by
  unfold Memory.push
  split
  · rfl
  · rw [Memory.read_cons, if_neg (Ne.symm h)]

theorem Memory.read_write_same_from {lo a : Nat} {v : Byte} {m : Memory}
    (hm : Memory.wfFrom lo m = true) : Memory.read (Memory.write m a v) a = v := by
  induction m generalizing lo with
  | nil => exact Memory.read_push_same rfl
  | cons c m ih =>
    obtain ⟨k, w⟩ := c
    have hc := Memory.wfFrom_cons.mp hm
    simp only [Memory.write]
    split
    · exact Memory.read_push_same (Memory.wfFrom_cons.mpr ⟨by omega, hc.2⟩)
    · split
      · subst a
        exact Memory.read_push_same hc.2.2
      · rw [Memory.read_cons, if_neg (by omega)]
        exact ih hc.2.2

/-- A read of the address just written gives the value written. -/
theorem Memory.read_write_same {a : Nat} {v : Byte} {m : Memory} (hm : m.wf = true) :
    (m.write a v).read a = v :=
  Memory.read_write_same_from hm

/-- A write leaves every other address as it was. -/
theorem Memory.read_write_other {a b : Nat} {v : Byte} {m : Memory} (h : b ≠ a) :
    (m.write a v).read b = m.read b := by
  induction m with
  | nil => exact Memory.read_push_other h
  | cons c m ih =>
    obtain ⟨k, w⟩ := c
    simp only [Memory.write]
    split
    · exact Memory.read_push_other h
    · split
      · subst a
        rw [Memory.read_push_other h, Memory.read_cons, if_neg (Ne.symm h)]
      · rw [Memory.read_cons, Memory.read_cons, ih]

/-- What an image's memory reads as. -/
theorem Memory.read_ofBytes (a : Nat) (vs : List Byte) (i : Nat) :
    (Memory.ofBytes a vs).read (a + i) = vs.getD i unlistedByte := by
  induction vs generalizing a i with
  | nil => rfl
  | cons v vs ih =>
    cases i with
    | zero => exact Memory.read_push_same (Memory.wfFrom_ofBytes (a + 1) vs)
    | succ i =>
      have h : a + (i + 1) = (a + 1) + i := by omega
      rw [Memory.ofBytes, Memory.read_push_other (by omega), h, ih]
      rfl

/-! ## Equal reads make equal memories -/

theorem Memory.ext_from {lo : Nat} {m m' : Memory} (hm : Memory.wfFrom lo m = true)
    (hm' : Memory.wfFrom lo m' = true) (h : ∀ a, m.read a = m'.read a) : m = m' := by
  induction m generalizing lo m' with
  | nil =>
    cases m' with
    | nil => rfl
    | cons c m' =>
      obtain ⟨k, v⟩ := c
      have hk := h k
      rw [Memory.read_cons, if_pos rfl] at hk
      exact absurd hk.symm (Memory.wfFrom_cons.mp hm').2.1
  | cons c m ih =>
    obtain ⟨k, v⟩ := c
    have hc := Memory.wfFrom_cons.mp hm
    cases m' with
    | nil =>
      have hk := h k
      rw [Memory.read_cons, if_pos rfl] at hk
      exact absurd hk hc.2.1
    | cons c' m' =>
      obtain ⟨k', v'⟩ := c'
      have hc' := Memory.wfFrom_cons.mp hm'
      have hkk : k = k' := by
        rcases Nat.lt_trichotomy k k' with hlt | heq | hgt
        · have hk := h k
          rw [Memory.read_cons, if_pos rfl, Memory.read_cons, if_neg (by omega),
            Memory.read_below hc'.2.2 (by omega)] at hk
          exact absurd hk hc.2.1
        · exact heq
        · have hk := h k'
          rw [Memory.read_cons, if_neg (by omega), Memory.read_below hc.2.2 (by omega),
            Memory.read_cons, if_pos rfl] at hk
          exact absurd hk.symm hc'.2.1
      subst hkk
      have hv : v = v' := by
        have hk := h k
        rwa [Memory.read_cons, if_pos rfl, Memory.read_cons, if_pos rfl] at hk
      subst hv
      have hrest : m = m' := ih hc.2.2 hc'.2.2 fun a => by
        by_cases ha : k = a
        · subst a
          rw [Memory.read_below hc.2.2 (by omega), Memory.read_below hc'.2.2 (by omega)]
        · have hk := h a
          rwa [Memory.read_cons, if_neg ha, Memory.read_cons, if_neg ha] at hk
      rw [hrest]

/-- Two memories in canonical form that read alike are the same list. -/
theorem Memory.ext {m m' : Memory} (hm : m.wf = true) (hm' : m'.wf = true)
    (h : ∀ a, m.read a = m'.read a) : m = m' :=
  Memory.ext_from hm hm' h

end Sys2Proof.Machine
end

