-- ==== Sys2Proof/Laws/State.lean ====
section
/-! SUPPORT. What each update of State does to each field: one lemma per field per update. -/

namespace Sys2Proof.Machine

section setAcc
variable (v : Byte) (s : State)

@[simp] theorem State.setAcc_acc : (s.setAcc v).acc = v := rfl
@[simp] theorem State.setAcc_ix : (s.setAcc v).ix = s.ix := rfl
@[simp] theorem State.setAcc_pc : (s.setAcc v).pc = s.pc := rfl
@[simp] theorem State.setAcc_mar : (s.setAcc v).mar = s.mar := rfl
@[simp] theorem State.setAcc_ir : (s.setAcc v).ir = s.ir := rfl
@[simp] theorem State.setAcc_flags : (s.setAcc v).flags = s.flags := rfl
@[simp] theorem State.setAcc_mem : (s.setAcc v).mem = s.mem := rfl
@[simp] theorem State.setAcc_obuf : (s.setAcc v).obuf = s.obuf := rfl
@[simp] theorem State.setAcc_ibuf : (s.setAcc v).ibuf = s.ibuf := rfl
@[simp] theorem State.setAcc_run : (s.setAcc v).run = s.run := rfl
@[simp] theorem State.setAcc_status : (s.setAcc v).status = s.status := rfl
@[simp] theorem State.setAcc_params : (s.setAcc v).params = s.params := rfl

end setAcc

section setIx
variable (v : Byte) (s : State)

@[simp] theorem State.setIx_acc : (s.setIx v).acc = s.acc := rfl
@[simp] theorem State.setIx_ix : (s.setIx v).ix = v := rfl
@[simp] theorem State.setIx_pc : (s.setIx v).pc = s.pc := rfl
@[simp] theorem State.setIx_mar : (s.setIx v).mar = s.mar := rfl
@[simp] theorem State.setIx_ir : (s.setIx v).ir = s.ir := rfl
@[simp] theorem State.setIx_flags : (s.setIx v).flags = s.flags := rfl
@[simp] theorem State.setIx_mem : (s.setIx v).mem = s.mem := rfl
@[simp] theorem State.setIx_obuf : (s.setIx v).obuf = s.obuf := rfl
@[simp] theorem State.setIx_ibuf : (s.setIx v).ibuf = s.ibuf := rfl
@[simp] theorem State.setIx_run : (s.setIx v).run = s.run := rfl
@[simp] theorem State.setIx_status : (s.setIx v).status = s.status := rfl
@[simp] theorem State.setIx_params : (s.setIx v).params = s.params := rfl

end setIx

section setPc
variable (v : Addr16) (s : State)

@[simp] theorem State.setPc_acc : (s.setPc v).acc = s.acc := rfl
@[simp] theorem State.setPc_ix : (s.setPc v).ix = s.ix := rfl
@[simp] theorem State.setPc_pc : (s.setPc v).pc = v := rfl
@[simp] theorem State.setPc_mar : (s.setPc v).mar = s.mar := rfl
@[simp] theorem State.setPc_ir : (s.setPc v).ir = s.ir := rfl
@[simp] theorem State.setPc_flags : (s.setPc v).flags = s.flags := rfl
@[simp] theorem State.setPc_mem : (s.setPc v).mem = s.mem := rfl
@[simp] theorem State.setPc_obuf : (s.setPc v).obuf = s.obuf := rfl
@[simp] theorem State.setPc_ibuf : (s.setPc v).ibuf = s.ibuf := rfl
@[simp] theorem State.setPc_run : (s.setPc v).run = s.run := rfl
@[simp] theorem State.setPc_status : (s.setPc v).status = s.status := rfl
@[simp] theorem State.setPc_params : (s.setPc v).params = s.params := rfl

end setPc

section setMar
variable (v : Addr16) (s : State)

@[simp] theorem State.setMar_acc : (s.setMar v).acc = s.acc := rfl
@[simp] theorem State.setMar_ix : (s.setMar v).ix = s.ix := rfl
@[simp] theorem State.setMar_pc : (s.setMar v).pc = s.pc := rfl
@[simp] theorem State.setMar_mar : (s.setMar v).mar = v := rfl
@[simp] theorem State.setMar_ir : (s.setMar v).ir = s.ir := rfl
@[simp] theorem State.setMar_flags : (s.setMar v).flags = s.flags := rfl
@[simp] theorem State.setMar_mem : (s.setMar v).mem = s.mem := rfl
@[simp] theorem State.setMar_obuf : (s.setMar v).obuf = s.obuf := rfl
@[simp] theorem State.setMar_ibuf : (s.setMar v).ibuf = s.ibuf := rfl
@[simp] theorem State.setMar_run : (s.setMar v).run = s.run := rfl
@[simp] theorem State.setMar_status : (s.setMar v).status = s.status := rfl
@[simp] theorem State.setMar_params : (s.setMar v).params = s.params := rfl

end setMar

section setIr
variable (v : Byte) (s : State)

@[simp] theorem State.setIr_acc : (s.setIr v).acc = s.acc := rfl
@[simp] theorem State.setIr_ix : (s.setIr v).ix = s.ix := rfl
@[simp] theorem State.setIr_pc : (s.setIr v).pc = s.pc := rfl
@[simp] theorem State.setIr_mar : (s.setIr v).mar = s.mar := rfl
@[simp] theorem State.setIr_ir : (s.setIr v).ir = v := rfl
@[simp] theorem State.setIr_flags : (s.setIr v).flags = s.flags := rfl
@[simp] theorem State.setIr_mem : (s.setIr v).mem = s.mem := rfl
@[simp] theorem State.setIr_obuf : (s.setIr v).obuf = s.obuf := rfl
@[simp] theorem State.setIr_ibuf : (s.setIr v).ibuf = s.ibuf := rfl
@[simp] theorem State.setIr_run : (s.setIr v).run = s.run := rfl
@[simp] theorem State.setIr_status : (s.setIr v).status = s.status := rfl
@[simp] theorem State.setIr_params : (s.setIr v).params = s.params := rfl

end setIr

section setFlags
variable (v : Flags) (s : State)

@[simp] theorem State.setFlags_acc : (s.setFlags v).acc = s.acc := rfl
@[simp] theorem State.setFlags_ix : (s.setFlags v).ix = s.ix := rfl
@[simp] theorem State.setFlags_pc : (s.setFlags v).pc = s.pc := rfl
@[simp] theorem State.setFlags_mar : (s.setFlags v).mar = s.mar := rfl
@[simp] theorem State.setFlags_ir : (s.setFlags v).ir = s.ir := rfl
@[simp] theorem State.setFlags_flags : (s.setFlags v).flags = v := rfl
@[simp] theorem State.setFlags_mem : (s.setFlags v).mem = s.mem := rfl
@[simp] theorem State.setFlags_obuf : (s.setFlags v).obuf = s.obuf := rfl
@[simp] theorem State.setFlags_ibuf : (s.setFlags v).ibuf = s.ibuf := rfl
@[simp] theorem State.setFlags_run : (s.setFlags v).run = s.run := rfl
@[simp] theorem State.setFlags_status : (s.setFlags v).status = s.status := rfl
@[simp] theorem State.setFlags_params : (s.setFlags v).params = s.params := rfl

end setFlags

section setMem
variable (v : Memory) (s : State)

@[simp] theorem State.setMem_acc : (s.setMem v).acc = s.acc := rfl
@[simp] theorem State.setMem_ix : (s.setMem v).ix = s.ix := rfl
@[simp] theorem State.setMem_pc : (s.setMem v).pc = s.pc := rfl
@[simp] theorem State.setMem_mar : (s.setMem v).mar = s.mar := rfl
@[simp] theorem State.setMem_ir : (s.setMem v).ir = s.ir := rfl
@[simp] theorem State.setMem_flags : (s.setMem v).flags = s.flags := rfl
@[simp] theorem State.setMem_mem : (s.setMem v).mem = v := rfl
@[simp] theorem State.setMem_obuf : (s.setMem v).obuf = s.obuf := rfl
@[simp] theorem State.setMem_ibuf : (s.setMem v).ibuf = s.ibuf := rfl
@[simp] theorem State.setMem_run : (s.setMem v).run = s.run := rfl
@[simp] theorem State.setMem_status : (s.setMem v).status = s.status := rfl
@[simp] theorem State.setMem_params : (s.setMem v).params = s.params := rfl

end setMem

section setObuf
variable (v : Latch) (s : State)

@[simp] theorem State.setObuf_acc : (s.setObuf v).acc = s.acc := rfl
@[simp] theorem State.setObuf_ix : (s.setObuf v).ix = s.ix := rfl
@[simp] theorem State.setObuf_pc : (s.setObuf v).pc = s.pc := rfl
@[simp] theorem State.setObuf_mar : (s.setObuf v).mar = s.mar := rfl
@[simp] theorem State.setObuf_ir : (s.setObuf v).ir = s.ir := rfl
@[simp] theorem State.setObuf_flags : (s.setObuf v).flags = s.flags := rfl
@[simp] theorem State.setObuf_mem : (s.setObuf v).mem = s.mem := rfl
@[simp] theorem State.setObuf_obuf : (s.setObuf v).obuf = v := rfl
@[simp] theorem State.setObuf_ibuf : (s.setObuf v).ibuf = s.ibuf := rfl
@[simp] theorem State.setObuf_run : (s.setObuf v).run = s.run := rfl
@[simp] theorem State.setObuf_status : (s.setObuf v).status = s.status := rfl
@[simp] theorem State.setObuf_params : (s.setObuf v).params = s.params := rfl

end setObuf

section setIbuf
variable (v : Latch) (s : State)

@[simp] theorem State.setIbuf_acc : (s.setIbuf v).acc = s.acc := rfl
@[simp] theorem State.setIbuf_ix : (s.setIbuf v).ix = s.ix := rfl
@[simp] theorem State.setIbuf_pc : (s.setIbuf v).pc = s.pc := rfl
@[simp] theorem State.setIbuf_mar : (s.setIbuf v).mar = s.mar := rfl
@[simp] theorem State.setIbuf_ir : (s.setIbuf v).ir = s.ir := rfl
@[simp] theorem State.setIbuf_flags : (s.setIbuf v).flags = s.flags := rfl
@[simp] theorem State.setIbuf_mem : (s.setIbuf v).mem = s.mem := rfl
@[simp] theorem State.setIbuf_obuf : (s.setIbuf v).obuf = s.obuf := rfl
@[simp] theorem State.setIbuf_ibuf : (s.setIbuf v).ibuf = v := rfl
@[simp] theorem State.setIbuf_run : (s.setIbuf v).run = s.run := rfl
@[simp] theorem State.setIbuf_status : (s.setIbuf v).status = s.status := rfl
@[simp] theorem State.setIbuf_params : (s.setIbuf v).params = s.params := rfl

end setIbuf

section setRun
variable (v : RunState) (s : State)

@[simp] theorem State.setRun_acc : (s.setRun v).acc = s.acc := rfl
@[simp] theorem State.setRun_ix : (s.setRun v).ix = s.ix := rfl
@[simp] theorem State.setRun_pc : (s.setRun v).pc = s.pc := rfl
@[simp] theorem State.setRun_mar : (s.setRun v).mar = s.mar := rfl
@[simp] theorem State.setRun_ir : (s.setRun v).ir = s.ir := rfl
@[simp] theorem State.setRun_flags : (s.setRun v).flags = s.flags := rfl
@[simp] theorem State.setRun_mem : (s.setRun v).mem = s.mem := rfl
@[simp] theorem State.setRun_obuf : (s.setRun v).obuf = s.obuf := rfl
@[simp] theorem State.setRun_ibuf : (s.setRun v).ibuf = s.ibuf := rfl
@[simp] theorem State.setRun_run : (s.setRun v).run = v := rfl
@[simp] theorem State.setRun_status : (s.setRun v).status = s.status := rfl
@[simp] theorem State.setRun_params : (s.setRun v).params = s.params := rfl

end setRun

section setStatus
variable (v : Option StepStatus) (s : State)

@[simp] theorem State.setStatus_acc : (s.setStatus v).acc = s.acc := rfl
@[simp] theorem State.setStatus_ix : (s.setStatus v).ix = s.ix := rfl
@[simp] theorem State.setStatus_pc : (s.setStatus v).pc = s.pc := rfl
@[simp] theorem State.setStatus_mar : (s.setStatus v).mar = s.mar := rfl
@[simp] theorem State.setStatus_ir : (s.setStatus v).ir = s.ir := rfl
@[simp] theorem State.setStatus_flags : (s.setStatus v).flags = s.flags := rfl
@[simp] theorem State.setStatus_mem : (s.setStatus v).mem = s.mem := rfl
@[simp] theorem State.setStatus_obuf : (s.setStatus v).obuf = s.obuf := rfl
@[simp] theorem State.setStatus_ibuf : (s.setStatus v).ibuf = s.ibuf := rfl
@[simp] theorem State.setStatus_run : (s.setStatus v).run = s.run := rfl
@[simp] theorem State.setStatus_status : (s.setStatus v).status = v := rfl
@[simp] theorem State.setStatus_params : (s.setStatus v).params = s.params := rfl

end setStatus

section writeA
variable (a : RegSel) (v : Byte) (s : State)

/-- R73: what operand A reads after it was written. -/
@[simp] theorem readA_writeA : readA a (writeA a v s) = v := by cases a <;> rfl

@[simp] theorem writeA_pc : (writeA a v s).pc = s.pc := by cases a <;> rfl
@[simp] theorem writeA_mar : (writeA a v s).mar = s.mar := by cases a <;> rfl
@[simp] theorem writeA_ir : (writeA a v s).ir = s.ir := by cases a <;> rfl
@[simp] theorem writeA_flags : (writeA a v s).flags = s.flags := by cases a <;> rfl
@[simp] theorem writeA_mem : (writeA a v s).mem = s.mem := by cases a <;> rfl
@[simp] theorem writeA_obuf : (writeA a v s).obuf = s.obuf := by cases a <;> rfl
@[simp] theorem writeA_ibuf : (writeA a v s).ibuf = s.ibuf := by cases a <;> rfl
@[simp] theorem writeA_run : (writeA a v s).run = s.run := by cases a <;> rfl
@[simp] theorem writeA_status : (writeA a v s).status = s.status := by cases a <;> rfl
@[simp] theorem writeA_params : (writeA a v s).params = s.params := by cases a <;> rfl

@[simp] theorem writeA_acc_ix : (writeA .acc v s).ix = s.ix := rfl
@[simp] theorem writeA_ix_acc : (writeA .ix v s).acc = s.acc := rfl
@[simp] theorem writeA_acc_acc : (writeA .acc v s).acc = v := rfl
@[simp] theorem writeA_ix_ix : (writeA .ix v s).ix = v := rfl

end writeA

end Sys2Proof.Machine
end

