-- ==== Sys2Proof/Laws/Ops.lean ====
section
/-! SUPPORT. What each shared operation can do, said once: the later proofs cite these lemmas instead of
unfolding the operations. -/

namespace Sys2Proof.Machine

/-! ## Memory -/

theorem memRead_of_lt {x : Nat} {s : State} (h : x < s.params.memSize) :
    memRead x s = .ok (s.mem.read x) := if_pos h

theorem memRead_of_le {x : Nat} {s : State} (h : s.params.memSize ≤ x) :
    memRead x s = .error (.addressOutOfRange x) := if_neg (by omega)

/-- Everything a read can do. -/
theorem memRead_cases (x : Nat) (s : State) :
    (x < s.params.memSize ∧ memRead x s = .ok (s.mem.read x)) ∨
    (s.params.memSize ≤ x ∧ memRead x s = .error (.addressOutOfRange x)) := by
  rcases Nat.lt_or_ge x s.params.memSize with h | h
  · exact .inl ⟨h, memRead_of_lt h⟩
  · exact .inr ⟨h, memRead_of_le h⟩

theorem memWrite_of_lt {x : Nat} {v : Byte} {s : State} (h : x < s.params.memSize) :
    memWrite x v s = .ok (s.setMem (s.mem.write x v)) := if_pos h

theorem memWrite_of_le {x : Nat} {v : Byte} {s : State} (h : s.params.memSize ≤ x) :
    memWrite x v s = .error (.addressOutOfRange x) := if_neg (by omega)

/-- Everything a write can do. -/
theorem memWrite_cases (x : Nat) (v : Byte) (s : State) :
    (x < s.params.memSize ∧ memWrite x v s = .ok (s.setMem (s.mem.write x v))) ∨
    (s.params.memSize ≤ x ∧ memWrite x v s = .error (.addressOutOfRange x)) := by
  rcases Nat.lt_or_ge x s.params.memSize with h | h
  · exact .inl ⟨h, memWrite_of_lt h⟩
  · exact .inr ⟨h, memWrite_of_le h⟩

/-! ## Ends of a step -/

theorem complete_eq_next {s t : State} :
    complete s = .next t ↔ t = s.setStatus (some .continue) := by
  simp only [complete, Host.Outcome.next.injEq, eq_comm]

theorem enterHalt_eq_next {r : HaltReason} {s t : State} :
    enterHalt r s = .next t ↔ t = (s.setRun .halted).setStatus (some (.halted r)) := by
  simp only [enterHalt, Host.Outcome.next.injEq, eq_comm]

theorem stayHalted_eq_next {s t : State} :
    stayHalted s = .next t ↔ t = s.setStatus (some (.halted .alreadyHalted)) := by
  simp only [stayHalted, Host.Outcome.next.injEq, eq_comm]

/-! ## Operand B -/

/-- With legal parameters mode 7 alone can form an address that does not exist (R203). -/
theorem mode_of_out_of_range {m : MemMode} {d : Byte} {s : State} (hl : s.params.legal = true)
    (h : s.params.memSize ≤ effectiveAddress m d s) : m = .ixData := by
  have hd := d.isLt
  have hx := s.ix.isLt
  simp only [Params.legal, Bool.and_eq_true, decide_eq_true_eq] at hl
  cases m <;> simp only [effectiveAddress] at h <;> first | rfl | omega

/-- Everything `ReadB` can do: a value, or the fault of a memory mode whose address is out of range. -/
theorem readB_cases (b : OperandB) (s : State) :
    (∃ v, readB b s = .ok v) ∨
    (∃ m d, b = .mem m d ∧ s.params.memSize ≤ effectiveAddress m d s ∧
      readB b s = .error (.addressOutOfRange (effectiveAddress m d s))) := by
  cases b with
  | acc => exact .inl ⟨_, rfl⟩
  | ix => exact .inl ⟨_, rfl⟩
  | imm c d => exact .inl ⟨_, rfl⟩
  | mem m d =>
    rcases memRead_cases (effectiveAddress m d s) s with ⟨_, h⟩ | ⟨h, h'⟩
    · exact .inl ⟨_, h⟩
    · exact .inr ⟨m, d, rfl, h, h'⟩

theorem withB_of_ok {b : OperandB} {s : State} {v : Byte} (rest : Byte → Result)
    (h : readB b s = .ok v) : withB b s rest = rest v := by
  simp only [withB, h]

theorem withB_of_error {b : OperandB} {s : State} {e : HaltReason} (rest : Byte → Result)
    (h : readB b s = .error e) : withB b s rest = enterHalt e s := by
  simp only [withB, h]

/-- Everything an instruction over operand B can do: its rest on the operand's value, or the halt. -/
theorem withB_cases (b : OperandB) (s : State) (rest : Byte → Result) :
    (∃ v, readB b s = .ok v ∧ withB b s rest = rest v) ∨
    (∃ m d, b = .mem m d ∧ s.params.memSize ≤ effectiveAddress m d s ∧
      withB b s rest = enterHalt (.addressOutOfRange (effectiveAddress m d s)) s) := by
  rcases readB_cases b s with ⟨v, h⟩ | ⟨m, d, e, h, h'⟩
  · exact .inl ⟨v, h, withB_of_ok rest h⟩
  · exact .inr ⟨m, d, e, h, withB_of_error rest h'⟩

/-! ## Families of meanings -/

/-- Everything an ALU instruction with a write-back can do. -/
theorem aluWrite_cases (f : Byte → Byte → Flags → AluOut) (a : RegSel) (b : OperandB) (s : State) :
    (∃ v, readB b s = .ok v ∧ aluWrite f a b s =
      complete (writeA a (f (readA a s) v s.flags).result
        (s.setFlags (f (readA a s) v s.flags).flags))) ∨
    (∃ m d, b = .mem m d ∧ s.params.memSize ≤ effectiveAddress m d s ∧
      aluWrite f a b s = enterHalt (.addressOutOfRange (effectiveAddress m d s)) s) :=
  withB_cases b s _

/-- Everything a comparison can do. -/
theorem aluCompare_cases (f : Byte → Byte → Flags → AluOut) (a : RegSel) (b : OperandB)
    (s : State) :
    (∃ v, readB b s = .ok v ∧ aluCompare f a b s =
      complete (s.setFlags (f (readA a s) v s.flags).flags)) ∨
    (∃ m d, b = .mem m d ∧ s.params.memSize ≤ effectiveAddress m d s ∧
      aluCompare f a b s = enterHalt (.addressOutOfRange (effectiveAddress m d s)) s) :=
  withB_cases b s _

/-- Everything a load can do. -/
theorem execLd_cases (a : RegSel) (b : OperandB) (s : State) :
    (∃ v, readB b s = .ok v ∧ execLd a b s = complete (writeA a v s)) ∨
    (∃ m d, b = .mem m d ∧ s.params.memSize ≤ effectiveAddress m d s ∧
      execLd a b s = enterHalt (.addressOutOfRange (effectiveAddress m d s)) s) :=
  withB_cases b s _

/-- The one thing a shift or rotate does. -/
theorem shiftA_eq (f : Byte → AluOut) (a : RegSel) (s : State) :
    shiftA f a s = complete (writeA a (f (readA a s)).result (s.setFlags (f (readA a s)).flags)) :=
  rfl

/-- Everything a branch can do. -/
theorem branch_cases (cc : Fin 16) (t : Byte) (s : State) :
    (condHolds cc s = true ∧ branch cc t s = complete (s.setPc (zext16 t))) ∨
    (condHolds cc s = false ∧ branch cc t s = complete s) := by
  unfold branch
  cases h : condHolds cc s
  · exact .inr ⟨rfl, rfl⟩
  · exact .inl ⟨rfl, rfl⟩

/-- The storable modes are those with bit 2 of the mode field set (R55). -/
theorem modeOfField_mem_iff (b : BitVec 3) :
    (∃ m, modeOfField b = .mem m) ↔ b.getLsbD 2 = true := by
  constructor
  · rintro ⟨m, hm⟩
    revert hm
    cases m <;> revert b <;> decide
  · revert b
    have h : ∀ b : BitVec 3, b.getLsbD 2 = true →
        modeOfField b = .mem .absText ∨ modeOfField b = .mem .absData ∨
        modeOfField b = .mem .ixText ∨ modeOfField b = .mem .ixData := by decide
    intro b hb
    rcases h b hb with h | h | h | h <;> exact ⟨_, h⟩

/-- Everything a store can do: the write, a write out of range, or the fault of a mode that is not
storable. -/
theorem storeThrough_cases (a : RegSel) (b : BitVec 3) (d : Byte) (s : State) :
    (∃ m, modeOfField b = .mem m ∧ effectiveAddress m d s < s.params.memSize ∧
      storeThrough a b d s =
        complete (s.setMem (s.mem.write (effectiveAddress m d s) (readA a s)))) ∨
    (∃ m, modeOfField b = .mem m ∧ s.params.memSize ≤ effectiveAddress m d s ∧
      storeThrough a b d s = enterHalt (.addressOutOfRange (effectiveAddress m d s)) s) ∨
    (b.getLsbD 2 = false ∧ storeThrough a b d s = enterHalt (.illegalStoreMode s.ir) s) := by
  cases hb : b.getLsbD 2
  · refine .inr (.inr ⟨rfl, ?_⟩)
    have h : ∀ m, modeOfField b ≠ .mem m := fun m hm => by
      have := (modeOfField_mem_iff b).mp ⟨m, hm⟩
      rw [hb] at this
      cases this
    unfold storeThrough
    split
    · rfl
    · rfl
    · rfl
    · exact absurd ‹_› (h _)
  · obtain ⟨m, hm⟩ := (modeOfField_mem_iff b).mpr hb
    simp only [storeThrough, hm, writeB]
    rcases memWrite_cases (effectiveAddress m d s) (readA a s) s with ⟨h, h'⟩ | ⟨h, h'⟩
    · exact .inl ⟨m, rfl, h, by simp only [h']⟩
    · exact .inr (.inl ⟨m, rfl, h, by simp only [h']⟩)

/-! ## Fetch and step -/

theorem fetchWordAt_of_lt {x : Nat} {s : State} (h : x < s.params.memSize) :
    fetchWordAt x s = .ok (s.mem.read x, (s.setMar s.pc).setPc (s.pc + 1)) := by
  simp only [fetchWordAt, memRead_of_lt h]

theorem fetchWordAt_of_le {x : Nat} {s : State} (h : s.params.memSize ≤ x) :
    fetchWordAt x s = .error (.addressOutOfRange x) := by
  simp only [fetchWordAt, memRead_of_le h]

theorem fetchWord_of_lt {s : State} (h : s.pc.toNat < s.params.memSize) :
    fetchWord s = .ok (s.mem.read s.pc.toNat, (s.setMar s.pc).setPc (s.pc + 1)) :=
  fetchWordAt_of_lt h

theorem fetchWord_of_le {s : State} (h : s.params.memSize ≤ s.pc.toNat) :
    fetchWord s = .error (.addressOutOfRange s.pc.toNat) :=
  fetchWordAt_of_le h

/-- Everything the fetch unit can do with one instruction. -/
theorem fetchInstr_cases (s : State) :
    let w := s.mem.read s.pc.toNat
    let one := ((s.setMar s.pc).setPc (s.pc + 1)).setIr w
    let two := (one.setMar (s.pc + 1)).setPc (s.pc + 1 + 1)
    (s.params.memSize ≤ s.pc.toNat ∧
      fetchInstr s = .raised (.addressOutOfRange s.pc.toNat) s) ∨
    (s.pc.toNat < s.params.memSize ∧ needsSecond w = false ∧
      fetchInstr s = .instr (decodeWords w 0) one) ∨
    (s.pc.toNat < s.params.memSize ∧ needsSecond w = true ∧
      s.params.memSize ≤ s.pc.toNat + 1 ∧
      fetchInstr s = .raised (.addressOutOfRange (s.pc.toNat + 1)) one) ∨
    (s.pc.toNat < s.params.memSize ∧ needsSecond w = true ∧
      s.pc.toNat + 1 < s.params.memSize ∧
      fetchInstr s = .instr (decodeWords w (s.mem.read (s.pc.toNat + 1))) two) := by
  intro w one two
  rcases Nat.lt_or_ge s.pc.toNat s.params.memSize with h | h
  · have hf := fetchWord_of_lt h
    cases hn : needsSecond w
    · refine .inr (.inl ⟨h, rfl, ?_⟩)
      simp only [fetchInstr, hf]
      rw [if_neg (by simpa using hn)]
    · rcases Nat.lt_or_ge (s.pc.toNat + 1) s.params.memSize with h' | h'
      · refine .inr (.inr (.inr ⟨h, rfl, h', ?_⟩))
        have hf' : fetchSecondWord s.pc one = _ := fetchWordAt_of_lt h'
        simp only [fetchInstr, hf]
        rw [if_pos hn, hf']
        rfl
      · refine .inr (.inr (.inl ⟨h, rfl, h', ?_⟩))
        have hf' : fetchSecondWord s.pc one = _ := fetchWordAt_of_le h'
        simp only [fetchInstr, hf]
        rw [if_pos hn, hf']
  · exact .inl ⟨h, by simp only [fetchInstr, fetchWord_of_le h]⟩

theorem step_of_halted {s : State} (h : s.run = .halted) : step s = stayHalted s := by
  simp only [step, h]

/-- Everything a step can do: stay halted, halt on a fetch, or run the instruction fetched. -/
theorem step_cases (s : State) :
    (s.run = .halted ∧ step s = stayHalted s) ∨
    (s.run = .running ∧ ∃ r s', fetchInstr s = .raised r s' ∧ step s = enterHalt r s') ∨
    (s.run = .running ∧ ∃ i s', fetchInstr s = .instr i s' ∧ step s = exec i s') := by
  cases h : s.run
  · refine .inr ?_
    cases hf : fetchInstr s with
    | raised r s' => exact .inl ⟨rfl, r, s', rfl, by simp only [step, h, hf]⟩
    | instr i s' => exact .inr ⟨rfl, i, s', rfl, by simp only [step, h, hf]⟩
  · exact .inl ⟨rfl, step_of_halted h⟩

end Sys2Proof.Machine
end

