-- ==== Sys2Proof/Laws/Decode.lean ====
section
/-! SUPPORT. The decoder on one and two bytes, and the step on a state whose words are in range. -/

namespace Sys2Proof.Machine

theorem decode_one {w : Byte} {i : Instr} (h : decode [w] = .ok (i, [])) :
    needsSecond w = false ∧ i = decodeWords w 0 := by
  simp only [decode] at h
  split at h
  · cases h
  · simp only [Except.ok.injEq, Prod.mk.injEq] at h
    exact ⟨by simp_all, h.1.symm⟩

theorem decode_two {w d : Byte} {i : Instr} (h : decode [w, d] = .ok (i, [])) :
    needsSecond w = true ∧ i = decodeWords w d := by
  simp only [decode] at h
  split at h
  · simp only [Except.ok.injEq, Prod.mk.injEq] at h
    exact ⟨by simp_all, h.1.symm⟩
  · simp at h

/-- What the fetch unit gives for an instruction of one word (R70, R71). -/
theorem fetchInstr_one {s : State} (h : s.canFetchOne) (hn : needsSecond s.opcode = false) :
    fetchInstr s = .instr (decodeWords s.opcode 0) s.afterOne := by
  rcases fetchInstr_cases s with ⟨a, _⟩ | ⟨_, _, c⟩ | ⟨_, b, _⟩ | ⟨_, b, _⟩
  · exact absurd h.2 (by omega)
  · exact c
  · rw [State.opcode, b] at hn; cases hn
  · rw [State.opcode, b] at hn; cases hn

/-- What the fetch unit gives for an instruction of two words (R70, R71). -/
theorem fetchInstr_two {s : State} (h : s.canFetchTwo) (hn : needsSecond s.opcode = true) :
    fetchInstr s = .instr (decodeWords s.opcode s.secondWord) s.afterTwo := by
  rcases fetchInstr_cases s with ⟨a, _⟩ | ⟨_, b, _⟩ | ⟨_, _, c, _⟩ | ⟨_, _, _, d⟩
  · exact absurd h.1.2 (by omega)
  · rw [State.opcode, b] at hn; cases hn
  · exact absurd h.2 (by omega)
  · rw [d, BitVec.add_assoc]; rfl

end Sys2Proof.Machine
end

