-- ==== Sys2Proof/Laws/Flags.lean ====
section
/-! SUPPORT. The flag engine as arithmetic: what each of its operations gives, once. -/

namespace Sys2Proof.Machine

/-- Bit 7 of a word is its upper half of values. -/
theorem getLsbD_seven (v : Byte) : v.getLsbD 7 = decide (128 ≤ v.toNat) := by
  revert v; decide

theorem negBit_eq (r : Byte) : negBit r = decide (128 ≤ r.toNat) := getLsbD_seven r

theorem zeroBit_eq (r : Byte) : zeroBit r = decide (r.toNat = 0) := by
  revert r; decide

theorem neg8_toNat (b : Byte) : (neg8 b).toNat = (256 - b.toNat) % 256 := by
  revert b; decide

/-- The carry of the low 7 bits (R100). -/
theorem carry7_eq (a b : Byte) : carry7 a b = decide (128 ≤ a.toNat % 128 + b.toNat % 128) := by
  have low : ∀ v : Byte, (v &&& 0x7F).toNat = v.toNat % 128 := by decide
  rw [carry7, getLsbD_seven, BitVec.toNat_add, low, low]
  congr 2
  omega

/-- `AddFlags` (R100) in closed form. -/
theorem addFlags_spec (a b : Byte) :
    (addFlags a b).result = a + b ∧
    ((addFlags a b).flags.cf = true ↔ 256 ≤ a.toNat + b.toNat) ∧
    ((addFlags a b).flags.vf = true ↔ ¬ inSignedRange (a.toInt + b.toInt)) ∧
    (addFlags a b).flags.nf = decide (128 ≤ (a + b).toNat) ∧
    (addFlags a b).flags.zf = decide ((a + b).toNat = 0) := by
  have ha := a.isLt
  have hb := b.isLt
  refine ⟨rfl, ?_, ?_, negBit_eq _, zeroBit_eq _⟩
  · simp only [addFlags, carry7_eq, getLsbD_seven, Bool.or_eq_true, Bool.and_eq_true, decide_eq_true_eq]
    omega
  · simp only [addFlags, carry7_eq, getLsbD_seven, Bool.or_eq_true, Bool.and_eq_true, Bool.not_eq_true',
      decide_eq_true_eq, decide_eq_false_iff_not, inSignedRange, BitVec.toInt_eq_toNat_cond]
    split <;> split <;> omega

/-- The fold of the carry into operand B (R112). -/
theorem foldCarry_toNat (b : Byte) (c : Bool) : (foldCarry b c).toNat = (b.toNat + c.toNat) % 256 := by
  have := b.isLt
  cases c
  · simp [foldCarry]; omega
  · simp [foldCarry]

/-- A move by one place to the right (R121, R123, R125). -/
theorem moveRight_spec (fill : Bool) (v : Byte) :
    (moveRight fill v).result.toNat = v.toNat / 2 + 128 * fill.toNat ∧
    (moveRight fill v).flags.cf = decide (v.toNat % 2 = 1) ∧
    (moveRight fill v).flags.vf = false := by
  cases fill <;> (revert v; decide)

/-- A move by one place to the left (R122, R124, R126, R128). -/
theorem moveLeft_spec (signed fill : Bool) (v : Byte) :
    (moveLeft signed fill v).result.toNat = 2 * v.toNat % 256 + fill.toNat ∧
    (moveLeft signed fill v).flags.cf = decide (128 ≤ v.toNat) ∧
    (moveLeft signed fill v).flags.vf =
      (signed && (decide (128 ≤ v.toNat) ^^ decide (64 ≤ v.toNat % 128))) := by
  cases signed <;> cases fill <;> (revert v; decide)

end Sys2Proof.Machine
end

