-- ==== Sys2Proof/Laws/PerInstr.lean ====
section
/-! SUPPORT. Statements about every instruction as syntax, one lemma per constructor. -/

namespace Sys2Proof.Laws

/-- The words of a well-formed instruction are as many as R58 gives its first word. -/
def EncodingLength.Statement (i : Instr) : Prop :=
  i.wellFormed = true →
    (∃ w, encode i = [w] ∧ needsSecond w = false) ∨
    (∃ w d, encode i = [w, d] ∧ needsSecond w = true)

/-- The first words of format M with a mode field below 2 stand alone, the others take a second word. -/
theorem EncodingLength.formatM (op : BitVec 4) (h : op = 6 ∨ 8 ≤ op) (a : RegSel) (b : OperandB) :
    (∃ w, encodeM op a b = [w] ∧ needsSecond w = false) ∨
    (∃ w d, encodeM op a b = [w, d] ∧ needsSecond w = true) := by
  have h1 : ∀ op : BitVec 4, (op = 6 ∨ 8 ≤ op) → ∀ a : BitVec 1, ∀ l : BitVec 3,
      needsSecond (op ++ a ++ l) = decide (2 ≤ l) := by decide
  cases b with
  | acc => exact .inl ⟨_, rfl, h1 op h a.bit 0⟩
  | ix => exact .inl ⟨_, rfl, h1 op h a.bit 1⟩
  | imm c d => cases c <;> exact .inr ⟨_, d, rfl, h1 op h a.bit _⟩
  | mem m d => cases m <;> exact .inr ⟨_, d, rfl, h1 op h a.bit _⟩

/-- The first word of a store takes a second word in every mode. -/
theorem EncodingLength.store (a : RegSel) (b : BitVec 3) : needsSecond (wordM 0x7 a b) = true := by
  cases a <;> (revert b; decide)

theorem EncodingLength.nop (x : BitVec 3) : EncodingLength.Statement (.nop x) :=
  fun _ => .inl ⟨_, rfl, by revert x; decide⟩

theorem EncodingLength.hlt (x : BitVec 1) : EncodingLength.Statement (.hlt x) :=
  fun _ => .inl ⟨_, rfl, by revert x; decide⟩

theorem EncodingLength.jal (t : Byte) : EncodingLength.Statement (.jal t) :=
  fun _ => .inr ⟨_, t, rfl, by decide⟩

theorem EncodingLength.jr : EncodingLength.Statement (.jr) :=
  fun _ => .inl ⟨_, rfl, by decide⟩

theorem EncodingLength.hltHigh (x : BitVec 2) : EncodingLength.Statement (.hltHigh x) :=
  fun _ => .inl ⟨_, rfl, by revert x; decide⟩

theorem EncodingLength.out (x : BitVec 3) : EncodingLength.Statement (.out x) :=
  fun _ => .inl ⟨_, rfl, by revert x; decide⟩

theorem EncodingLength.inp (x : BitVec 3) : EncodingLength.Statement (.inp x) :=
  fun _ => .inl ⟨_, rfl, by revert x; decide⟩

theorem EncodingLength.rcf (x : BitVec 3) : EncodingLength.Statement (.rcf x) :=
  fun _ => .inl ⟨_, rfl, by revert x; decide⟩

theorem EncodingLength.scf (x : BitVec 3) : EncodingLength.Statement (.scf x) :=
  fun _ => .inl ⟨_, rfl, by revert x; decide⟩

theorem EncodingLength.ba (t : Byte) : EncodingLength.Statement (.ba t) :=
  fun _ => .inr ⟨_, t, rfl, by decide⟩

theorem EncodingLength.bnz (t : Byte) : EncodingLength.Statement (.bnz t) :=
  fun _ => .inr ⟨_, t, rfl, by decide⟩

theorem EncodingLength.bzp (t : Byte) : EncodingLength.Statement (.bzp t) :=
  fun _ => .inr ⟨_, t, rfl, by decide⟩

theorem EncodingLength.bp (t : Byte) : EncodingLength.Statement (.bp t) :=
  fun _ => .inr ⟨_, t, rfl, by decide⟩

theorem EncodingLength.bni (t : Byte) : EncodingLength.Statement (.bni t) :=
  fun _ => .inr ⟨_, t, rfl, by decide⟩

theorem EncodingLength.bnc (t : Byte) : EncodingLength.Statement (.bnc t) :=
  fun _ => .inr ⟨_, t, rfl, by decide⟩

theorem EncodingLength.bge (t : Byte) : EncodingLength.Statement (.bge t) :=
  fun _ => .inr ⟨_, t, rfl, by decide⟩

theorem EncodingLength.bgt (t : Byte) : EncodingLength.Statement (.bgt t) :=
  fun _ => .inr ⟨_, t, rfl, by decide⟩

theorem EncodingLength.bvf (t : Byte) : EncodingLength.Statement (.bvf t) :=
  fun _ => .inr ⟨_, t, rfl, by decide⟩

theorem EncodingLength.bz (t : Byte) : EncodingLength.Statement (.bz t) :=
  fun _ => .inr ⟨_, t, rfl, by decide⟩

theorem EncodingLength.bn (t : Byte) : EncodingLength.Statement (.bn t) :=
  fun _ => .inr ⟨_, t, rfl, by decide⟩

theorem EncodingLength.bzn (t : Byte) : EncodingLength.Statement (.bzn t) :=
  fun _ => .inr ⟨_, t, rfl, by decide⟩

theorem EncodingLength.bno (t : Byte) : EncodingLength.Statement (.bno t) :=
  fun _ => .inr ⟨_, t, rfl, by decide⟩

theorem EncodingLength.bc (t : Byte) : EncodingLength.Statement (.bc t) :=
  fun _ => .inr ⟨_, t, rfl, by decide⟩

theorem EncodingLength.blt (t : Byte) : EncodingLength.Statement (.blt t) :=
  fun _ => .inr ⟨_, t, rfl, by decide⟩

theorem EncodingLength.ble (t : Byte) : EncodingLength.Statement (.ble t) :=
  fun _ => .inr ⟨_, t, rfl, by decide⟩

theorem EncodingLength.sra (a : RegSel) : EncodingLength.Statement (.sra a) :=
  fun _ => .inl ⟨_, rfl, by cases a <;> decide⟩

theorem EncodingLength.sla (a : RegSel) : EncodingLength.Statement (.sla a) :=
  fun _ => .inl ⟨_, rfl, by cases a <;> decide⟩

theorem EncodingLength.srl (a : RegSel) : EncodingLength.Statement (.srl a) :=
  fun _ => .inl ⟨_, rfl, by cases a <;> decide⟩

theorem EncodingLength.sll (a : RegSel) : EncodingLength.Statement (.sll a) :=
  fun _ => .inl ⟨_, rfl, by cases a <;> decide⟩

theorem EncodingLength.rra (a : RegSel) : EncodingLength.Statement (.rra a) :=
  fun _ => .inl ⟨_, rfl, by cases a <;> decide⟩

theorem EncodingLength.rla (a : RegSel) : EncodingLength.Statement (.rla a) :=
  fun _ => .inl ⟨_, rfl, by cases a <;> decide⟩

theorem EncodingLength.rrl (a : RegSel) : EncodingLength.Statement (.rrl a) :=
  fun _ => .inl ⟨_, rfl, by cases a <;> decide⟩

theorem EncodingLength.rll (a : RegSel) : EncodingLength.Statement (.rll a) :=
  fun _ => .inl ⟨_, rfl, by cases a <;> decide⟩

theorem EncodingLength.illegal (x : BitVec 4) : EncodingLength.Statement (.illegal x) :=
  fun _ => .inl ⟨_, rfl, by revert x; decide⟩

theorem EncodingLength.ld (a : RegSel) (b : OperandB) : EncodingLength.Statement (.ld a b) :=
  fun _ => EncodingLength.formatM 6 (by decide) a b

theorem EncodingLength.st (a : RegSel) (b : BitVec 3) (d : Byte) : EncodingLength.Statement (.st a b d) :=
  fun _ => .inr ⟨_, d, rfl, EncodingLength.store a b⟩

theorem EncodingLength.stIllegalMode (a : RegSel) (b : BitVec 3) (d : Byte) : EncodingLength.Statement (.stIllegalMode a b d) :=
  fun _ => .inr ⟨_, d, rfl, EncodingLength.store a b⟩

theorem EncodingLength.sbc (a : RegSel) (b : OperandB) : EncodingLength.Statement (.sbc a b) :=
  fun _ => EncodingLength.formatM 8 (by decide) a b

theorem EncodingLength.adc (a : RegSel) (b : OperandB) : EncodingLength.Statement (.adc a b) :=
  fun _ => EncodingLength.formatM 9 (by decide) a b

theorem EncodingLength.sub (a : RegSel) (b : OperandB) : EncodingLength.Statement (.sub a b) :=
  fun _ => EncodingLength.formatM 10 (by decide) a b

theorem EncodingLength.add (a : RegSel) (b : OperandB) : EncodingLength.Statement (.add a b) :=
  fun _ => EncodingLength.formatM 11 (by decide) a b

theorem EncodingLength.eor (a : RegSel) (b : OperandB) : EncodingLength.Statement (.eor a b) :=
  fun _ => EncodingLength.formatM 12 (by decide) a b

theorem EncodingLength.or (a : RegSel) (b : OperandB) : EncodingLength.Statement (.or a b) :=
  fun _ => EncodingLength.formatM 13 (by decide) a b

theorem EncodingLength.and (a : RegSel) (b : OperandB) : EncodingLength.Statement (.and a b) :=
  fun _ => EncodingLength.formatM 14 (by decide) a b

theorem EncodingLength.cmp (a : RegSel) (b : OperandB) : EncodingLength.Statement (.cmp a b) :=
  fun _ => EncodingLength.formatM 15 (by decide) a b

end Sys2Proof.Laws
end

