-- ==== Sys2Proof/Tests/Slice0.lean ====
section
/-! SUPPORT. Tests on fixed values. The words are written out from the encodings of 30_encoding.md, the expected
results are those of 95_test_vectors.md. At the end, for each statement with hypotheses, a state and
operands that meet them. -/

namespace Sys2Proof.Tests

open Sys2Proof Sys2Proof.Machine

/-! ## Well-formedness: one ill-formed term for each check -/

theorem test_st_in_mode_immediate_is_ill_formed : (Instr.st .acc 3 0x10).wellFormed = false := by decide
theorem test_st_in_mode_acc_is_ill_formed : (Instr.st .ix 0 0x10).wellFormed = false := by decide
theorem test_st_illegal_mode_with_a_memory_mode_is_ill_formed :
    (Instr.stIllegalMode .acc 4 0x10).wellFormed = false := by decide
theorem test_st_illegal_mode_with_the_last_mode_is_ill_formed :
    (Instr.stIllegalMode .ix 7 0x10).wellFormed = false := by decide
theorem test_stores_well_formed : (Instr.st .acc 4 0).wellFormed = true ∧
    (Instr.stIllegalMode .ix 3 0).wellFormed = true := by decide

/-! ## Decoding: every constructor, at both ends of its range of first words -/

theorem test_decode_nop : decode [0b00000000] = .ok (.nop 0, []) ∧
    decode [0b00000111] = .ok (.nop 7, []) := ⟨rfl, rfl⟩
theorem test_decode_hlt : decode [0b00001000] = .ok (.hlt 0, []) ∧
    decode [0b00001001] = .ok (.hlt 1, []) := ⟨rfl, rfl⟩
theorem test_decode_hlt_high : decode [0b00001100] = .ok (.hltHigh 0, []) ∧
    decode [0b00001111] = .ok (.hltHigh 3, []) := ⟨rfl, rfl⟩
theorem test_decode_jal_jr : decode [0b00001010, 0x10] = .ok (.jal 0x10, []) ∧
    decode [0b00001011, 0x10] = .ok (.jr, [0x10]) := ⟨rfl, rfl⟩
theorem test_decode_out_in : decode [0b00010000] = .ok (.out 0, []) ∧
    decode [0b00010111] = .ok (.out 7, []) ∧
    decode [0b00011000] = .ok (.inp 0, []) ∧ decode [0b00011111] = .ok (.inp 7, []) :=
  ⟨rfl, rfl, rfl, rfl⟩
theorem test_decode_rcf_scf : decode [0b00100000] = .ok (.rcf 0, []) ∧
    decode [0b00100111] = .ok (.rcf 7, []) ∧
    decode [0b00101000] = .ok (.scf 0, []) ∧ decode [0b00101111] = .ok (.scf 7, []) :=
  ⟨rfl, rfl, rfl, rfl⟩
theorem test_decode_branches_low :
    decode [0b00110000, 0x20] = .ok (.ba 0x20, []) ∧ decode [0b00110001, 0x20] = .ok (.bnz 0x20, []) ∧
    decode [0b00110010, 0x20] = .ok (.bzp 0x20, []) ∧ decode [0b00110011, 0x20] = .ok (.bp 0x20, []) ∧
    decode [0b00110100, 0x20] = .ok (.bni 0x20, []) ∧ decode [0b00110101, 0x20] = .ok (.bnc 0x20, []) ∧
    decode [0b00110110, 0x20] = .ok (.bge 0x20, []) ∧ decode [0b00110111, 0x20] = .ok (.bgt 0x20, []) :=
  ⟨rfl, rfl, rfl, rfl, rfl, rfl, rfl, rfl⟩
theorem test_decode_branches_high :
    decode [0b00111000, 0x20] = .ok (.bvf 0x20, []) ∧ decode [0b00111001, 0x20] = .ok (.bz 0x20, []) ∧
    decode [0b00111010, 0x20] = .ok (.bn 0x20, []) ∧ decode [0b00111011, 0x20] = .ok (.bzn 0x20, []) ∧
    decode [0b00111100, 0x20] = .ok (.bno 0x20, []) ∧ decode [0b00111101, 0x20] = .ok (.bc 0x20, []) ∧
    decode [0b00111110, 0x20] = .ok (.blt 0x20, []) ∧ decode [0b00111111, 0x20] = .ok (.ble 0x20, []) :=
  ⟨rfl, rfl, rfl, rfl, rfl, rfl, rfl, rfl⟩
theorem test_decode_shifts :
    decode [0b01000000] = .ok (.sra .acc, []) ∧ decode [0b01001000] = .ok (.sra .ix, []) ∧
    decode [0b01000001] = .ok (.sla .acc, []) ∧ decode [0b01001010] = .ok (.srl .ix, []) ∧
    decode [0b01000011] = .ok (.sll .acc, []) ∧ decode [0b01001011] = .ok (.sll .ix, []) :=
  ⟨rfl, rfl, rfl, rfl, rfl, rfl⟩
theorem test_decode_rotates :
    decode [0b01000100] = .ok (.rra .acc, []) ∧ decode [0b01001100] = .ok (.rra .ix, []) ∧
    decode [0b01000101] = .ok (.rla .acc, []) ∧ decode [0b01001110] = .ok (.rrl .ix, []) ∧
    decode [0b01000111] = .ok (.rll .acc, []) ∧ decode [0b01001111] = .ok (.rll .ix, []) :=
  ⟨rfl, rfl, rfl, rfl, rfl, rfl⟩
theorem test_decode_illegal : decode [0b01010000] = .ok (.illegal 0, []) ∧
    decode [0b01011111] = .ok (.illegal 15, []) := ⟨rfl, rfl⟩
theorem test_decode_ld :
    decode [0b01100000, 0x10] = .ok (.ld .acc .acc, [0x10]) ∧
    decode [0b01101001, 0x10] = .ok (.ld .ix .ix, [0x10]) ∧
    decode [0b01100010, 0x05] = .ok (.ld .acc (.imm false 0x05), []) ∧
    decode [0b01101011, 0x05] = .ok (.ld .ix (.imm true 0x05), []) ∧
    decode [0b01100100, 0x05] = .ok (.ld .acc (.mem .absText 0x05), []) ∧
    decode [0b01100101, 0x05] = .ok (.ld .acc (.mem .absData 0x05), []) ∧
    decode [0b01100110, 0x05] = .ok (.ld .acc (.mem .ixText 0x05), []) ∧
    decode [0b01101111, 0x05] = .ok (.ld .ix (.mem .ixData 0x05), []) :=
  ⟨rfl, rfl, rfl, rfl, rfl, rfl, rfl, rfl⟩
theorem test_decode_st : decode [0b01110100, 0x10] = .ok (.st .acc 4 0x10, []) ∧
    decode [0b01111111, 0x10] = .ok (.st .ix 7 0x10, []) ∧
    decode [0b01110000, 0x10] = .ok (.stIllegalMode .acc 0 0x10, []) ∧
    decode [0b01111011, 0x10] = .ok (.stIllegalMode .ix 3 0x10, []) := ⟨rfl, rfl, rfl, rfl⟩
theorem test_decode_arithmetic :
    decode [0b10000000] = .ok (.sbc .acc .acc, []) ∧
    decode [0b10001111, 0x10] = .ok (.sbc .ix (.mem .ixData 0x10), []) ∧
    decode [0b10010000] = .ok (.adc .acc .acc, []) ∧
    decode [0b10011111, 0x10] = .ok (.adc .ix (.mem .ixData 0x10), []) ∧
    decode [0b10100001] = .ok (.sub .acc .ix, []) ∧
    decode [0b10101110, 0x10] = .ok (.sub .ix (.mem .ixText 0x10), []) ∧
    decode [0b10110010, 0x03] = .ok (.add .acc (.imm false 0x03), []) ∧
    decode [0b10111101, 0x10] = .ok (.add .ix (.mem .absData 0x10), []) :=
  ⟨rfl, rfl, rfl, rfl, rfl, rfl, rfl, rfl⟩
theorem test_decode_logic :
    decode [0b11000000] = .ok (.eor .acc .acc, []) ∧
    decode [0b11001111, 0x10] = .ok (.eor .ix (.mem .ixData 0x10), []) ∧
    decode [0b11010011, 0x10] = .ok (.or .acc (.imm true 0x10), []) ∧
    decode [0b11011001] = .ok (.or .ix .ix, []) ∧
    decode [0b11100010, 0x0F] = .ok (.and .acc (.imm false 0x0F), []) ∧
    decode [0b11101100, 0x10] = .ok (.and .ix (.mem .absText 0x10), []) ∧
    decode [0b11110001] = .ok (.cmp .acc .ix, []) ∧
    decode [0b11111111, 0x10] = .ok (.cmp .ix (.mem .ixData 0x10), []) :=
  ⟨rfl, rfl, rfl, rfl, rfl, rfl, rfl, rfl⟩
theorem test_decode_missing_words : decode [] = .error .noFirstWord ∧
    decode [0b01110000] = .error .noSecondWord := ⟨rfl, rfl⟩
theorem test_host_number_of_a_two_word_instruction :
    decodeTableWord 16 0x100A = some (.jal 0x10) ∧ decodeTableWord 8 0x0A = some (.jal 0x00) ∧
    decodeTableWord 8 0x0B = some .jr := by decide

/-! ## One step -/

/-- Flags from 0 and 1, in the order C V N Z. -/
def flagsOf (c v n z : Nat) : Flags :=
  { cf := decide (c = 1), vf := decide (v = 1), nf := decide (n = 1), zf := decide (z = 1) }

/-- The reset state with the given words from address 0 on, registers and flags. -/
def start (code : List Byte) (acc ix : Byte) (f : Flags := flagsOf 0 0 0 0) : State :=
  { State.reset with acc := acc, ix := ix, flags := f, mem := Memory.ofBytes 0 code }

/-- The same at another address. -/
def startAt (p : Nat) (code : List Byte) (acc ix : Byte) (f : Flags := flagsOf 0 0 0 0) : State :=
  { start [] acc ix f with pc := BitVec.ofNat 16 p, mem := Memory.ofBytes p code }

/-- One memory word more. -/
def poke (a : Nat) (v : Byte) (s : State) : State := s.setMem (s.mem.write a v)

/-- What a test looks at after one step. -/
def after {α : Type} (s : State) (look : State → α) : Option α :=
  match step s with
  | .next t => some (look t)
  | _ => none

/-- Both registers and the flags. -/
def regs (t : State) : Byte × Byte × Flags := (t.acc, t.ix, t.flags)

/-- The program counter, `mar` and `ir`. -/
def fetchRegs (t : State) : Nat × Nat × Byte := (t.pc.toNat, t.mar.toNat, t.ir)

/-- Section 2.2. -/
theorem test_ld_registers_and_immediate :
    after (start [0x60] 0x12 0) regs = some (0x12, 0, flagsOf 0 0 0 0) ∧
    after (start [0x61] 0 0x05) regs = some (0x05, 0x05, flagsOf 0 0 0 0) ∧
    after (start [0x68] 0x09 0) regs = some (0x09, 0x09, flagsOf 0 0 0 0) ∧
    after (start [0x63, 0x07] 0 0 (flagsOf 1 0 0 1)) regs = some (0x07, 0, flagsOf 1 0 0 1) ∧
    after (start [0x62, 0x05] 0 0) fetchRegs = some (2, 1, 0x62) := by decide

/-- Section 2.2: `[IX+0xF0]` does not wrap; `(IX+2)` uses the old `ix`; a fault leaves `acc`. -/
theorem test_ld_memory_modes :
    after (start [0x64, 0x00] 0 0) regs = some (0x64, 0, flagsOf 0 0 0 0) ∧
    after (poke 0x10 0x77 (poke 0x110 0x99 (start [0x65, 0x10] 0 0))) regs =
      some (0x99, 0, flagsOf 0 0 0 0) ∧
    after (poke 0x110 0xAB (start [0x66, 0xF0] 0 0x20)) regs =
      some (0xAB, 0x20, flagsOf 0 0 0 0) ∧
    after (poke 0x105 0x44 (start [0x6F, 0x02] 0 0x03)) regs =
      some (0, 0x44, flagsOf 0 0 0 0) ∧
    after (start [0x67, 0xF0] 0x55 0x20) (fun t => (t.acc, t.status)) =
      some (0x55, some (.halted (.addressOutOfRange 0x210))) := by decide

/-- Section 2.2. -/
theorem test_st_memory_modes :
    after (start [0x74, 0x20] 0xAA 0) (fun t => t.mem.read 0x20) = some 0xAA ∧
    after (start [0x7D, 0x10] 0x50 0x07) (fun t => t.mem.read 0x110) = some 0x07 ∧
    after (start [0x76, 0xF0] 0x11 0x20) (fun t => t.mem.read 0x110) = some 0x11 ∧
    after (start [0x7F, 0x02] 0 0x03) (fun t => t.mem.read 0x105) = some 0x03 ∧
    after (start [0x77, 0xF0] 0x11 0x20) (fun t => (t.status, t.mem)) =
      some (some (.halted (.addressOutOfRange 0x210)), [(0, 0x77), (1, 0xF0)]) := by decide

/-- Sections 2.2 and 2.8. -/
theorem test_st_illegal_mode :
    after (start [0x72, 0x33] 0x09 0) (fun t => (fetchRegs t, t.run)) = some ((2, 1, 0x72), .halted) ∧
    after (start [0x72, 0x33] 0x09 0) (fun t => (t.status, t.mem)) =
      some (some (.halted (.illegalStoreMode 0x72)), [(0, 0x72), (1, 0x33)]) ∧
    after (start [0x7B, 0x00] 0 0) (fun t => t.status) =
      some (some (.halted (.illegalStoreMode 0x7B))) := by decide

/-- What an instruction with the first word `w` and the immediate `b` makes of `acc = a`. -/
def alu (w a b : Byte) (f : Flags := flagsOf 0 0 0 0) : Option (Byte × Flags) :=
  after (start [w, b] a 0 f) fun t => (t.acc, t.flags)

/-- Section 2.3. -/
theorem test_add : alu 0xB2 0x7F 0x01 = some (0x80, flagsOf 0 1 1 0) ∧
    alu 0xB2 0xF0 0x20 = some (0x10, flagsOf 1 0 0 0) ∧ alu 0xB2 0xFF 0x01 = some (0x00, flagsOf 1 0 0 1) ∧
    alu 0xB2 0x80 0x80 = some (0x00, flagsOf 1 1 0 1) ∧ alu 0xB2 0x80 0x7F = some (0xFF, flagsOf 0 0 1 0) := by
  decide
theorem test_add_operands :
    after (start [0xB9] 0 0x40) regs = some (0, 0x80, flagsOf 0 1 1 0) ∧
    after (start [0xB8] 0x01 0x02) regs = some (0x01, 0x03, flagsOf 0 0 0 0) ∧
    after (poke 0x112 0x05 (start [0xBF, 0x10] 0 0x02)) regs = some (0, 0x07, flagsOf 0 0 0 0) := by decide
theorem test_sub : alu 0xA2 0x05 0x03 = some (0x02, flagsOf 1 0 0 0) ∧
    alu 0xA2 0x03 0x05 = some (0xFE, flagsOf 0 0 1 0) ∧ alu 0xA2 0x80 0x01 = some (0x7F, flagsOf 1 1 0 0) ∧
    alu 0xA2 0x05 0x00 = some (0x05, flagsOf 0 0 0 0) ∧ alu 0xA2 0x7F 0x80 = some (0xFF, flagsOf 0 0 1 0) ∧
    alu 0xA2 0x80 0x80 = some (0x00, flagsOf 1 1 0 1) := by decide
theorem test_cmp : alu 0xF2 0x05 0x03 = some (0x05, flagsOf 1 0 0 0) ∧
    alu 0xF2 0x7F 0xFF = some (0x7F, flagsOf 0 1 1 0) ∧
    after (start [0xFA, 0x04] 0 0x04) regs = some (0, 0x04, flagsOf 1 0 0 1) := by decide
theorem test_adc : alu 0x92 0x01 0x01 (flagsOf 1 0 0 0) = some (0x03, flagsOf 0 0 0 0) ∧
    alu 0x92 0xF0 0x0F (flagsOf 1 0 0 0) = some (0x00, flagsOf 1 0 0 1) ∧
    alu 0x92 0x00 0x7F (flagsOf 1 0 0 0) = some (0x80, flagsOf 0 0 1 0) ∧
    alu 0x92 0x00 0xFF (flagsOf 1 0 0 0) = some (0x00, flagsOf 0 0 0 1) ∧
    alu 0x92 0x80 0x7F (flagsOf 1 0 0 0) = some (0x00, flagsOf 1 1 0 1) := by decide
theorem test_sbc : alu 0x82 0x05 0x03 (flagsOf 1 0 0 0) = some (0x01, flagsOf 1 0 0 0) ∧
    alu 0x82 0x05 0x05 (flagsOf 1 0 0 0) = some (0xFF, flagsOf 0 0 1 0) ∧
    alu 0x82 0x00 0xFF (flagsOf 1 0 0 0) = some (0x00, flagsOf 0 0 0 1) ∧
    alu 0x82 0x00 0xFF = some (0x01, flagsOf 0 0 0 0) := by decide
theorem test_and : alu 0xE2 0xF0 0x0F (flagsOf 1 1 0 0) = some (0x00, flagsOf 1 0 0 1) ∧
    alu 0xE2 0xFF 0x80 = some (0x80, flagsOf 0 0 1 0) := by decide
theorem test_or : alu 0xD2 0xF0 0x0F = some (0xFF, flagsOf 0 0 1 0) ∧
    alu 0xD2 0x00 0x00 = some (0x00, flagsOf 0 0 0 1) := by decide
theorem test_eor : alu 0xC2 0xFF 0x80 = some (0x7F, flagsOf 0 0 0 0) ∧
    alu 0xC2 0x81 0x81 (flagsOf 1 1 1 0) = some (0x00, flagsOf 1 0 0 1) := by decide

/-- What a shift or rotate with the first word `w` makes of `ix = v` (selector bit 3 set). -/
def shiftIx (w v : Byte) (f : Flags := flagsOf 0 0 0 0) : Option (Byte × Flags) :=
  after (start [w] 0x81 v f) fun t => (t.ix, t.flags)

/-- Section 2.5. -/
theorem test_sra : shiftIx 0x48 0x81 = some (0xC0, flagsOf 1 0 1 0) ∧
    shiftIx 0x48 0x7F = some (0x3F, flagsOf 1 0 0 0) ∧
    after (start [0x48] 0x81 0x81) (fun t => t.acc) = some 0x81 := by decide
theorem test_sla : shiftIx 0x49 0x40 = some (0x80, flagsOf 0 1 1 0) ∧
    shiftIx 0x49 0x80 = some (0x00, flagsOf 1 1 0 1) ∧ shiftIx 0x49 0xC0 = some (0x80, flagsOf 1 0 1 0) := by decide
theorem test_srl : shiftIx 0x4A 0x81 = some (0x40, flagsOf 1 0 0 0) ∧
    shiftIx 0x4A 0x00 = some (0x00, flagsOf 0 0 0 1) := by decide
theorem test_sll : shiftIx 0x4B 0x40 = some (0x80, flagsOf 0 0 1 0) ∧
    shiftIx 0x4B 0x80 = some (0x00, flagsOf 1 0 0 1) := by decide
theorem test_rla : shiftIx 0x4D 0x80 = some (0x01, flagsOf 1 1 0 0) ∧
    shiftIx 0x4D 0xC0 = some (0x81, flagsOf 1 0 1 0) := by decide
theorem test_rll : shiftIx 0x4F 0x80 = some (0x01, flagsOf 1 0 0 0) ∧
    shiftIx 0x4F 0x7F = some (0xFE, flagsOf 0 0 1 0) := by decide
theorem test_rra : shiftIx 0x4C 0xC0 (flagsOf 1 0 0 0) = some (0x60, flagsOf 0 0 0 0) ∧
    shiftIx 0x4C 0x01 = some (0x80, flagsOf 1 0 1 0) := by decide
theorem test_rrl_through_carry :
    let s := start [0x46] 0x02 0 (flagsOf 1 0 0 0)
    after { s with params := { defaultParams with rorFill := .oldCf } } (fun t => (t.acc, t.flags)) =
      some (0x81, flagsOf 0 0 1 0) ∧
    after s (fun t => (t.acc, t.flags)) = some (0x01, flagsOf 0 0 0 0) := by decide

/-- Where the branch with the first word `w` and the target 0x20 goes, and what `mar` is. -/
def goes (w : Byte) (f : Flags) : Option (Nat × Nat) :=
  after (start [w, 0x20] 0 0 f) fun t => (t.pc.toNat, t.mar.toNat)

/-- Section 2.4: taken. -/
theorem test_branches_taken : ∀ p ∈ [((0x30 : Byte), flagsOf 0 0 0 0), (0x31, flagsOf 0 0 0 0),
    (0x32, flagsOf 0 0 0 0), (0x33, flagsOf 0 0 0 0), (0x34, flagsOf 0 0 0 0), (0x35, flagsOf 0 0 0 0),
    (0x36, flagsOf 0 1 1 0), (0x37, flagsOf 0 1 1 0), (0x38, flagsOf 0 1 0 0), (0x39, flagsOf 0 0 0 1),
    (0x3A, flagsOf 0 0 1 0), (0x3B, flagsOf 0 0 0 1), (0x3D, flagsOf 1 0 0 0), (0x3E, flagsOf 0 1 0 0),
    (0x3F, flagsOf 0 1 0 0)], goes p.1 p.2 = some (0x20, 1) := by decide
/-- Section 2.4: not taken. -/
theorem test_branches_not_taken : ∀ p ∈ [((0x31 : Byte), flagsOf 0 0 0 1), (0x32, flagsOf 0 0 1 0),
    (0x33, flagsOf 0 0 0 1), (0x35, flagsOf 1 0 0 0), (0x36, flagsOf 0 0 1 0), (0x37, flagsOf 0 0 0 1),
    (0x38, flagsOf 0 0 0 0), (0x39, flagsOf 0 0 0 0), (0x3A, flagsOf 0 0 0 0), (0x3B, flagsOf 0 0 0 0),
    (0x3C, flagsOf 0 0 0 0), (0x3D, flagsOf 0 0 0 0), (0x3E, flagsOf 0 1 1 0), (0x3F, flagsOf 0 1 1 0)],
    goes p.1 p.2 = some (2, 1) := by decide
/-- Section 2.4, the two latch predicates. -/
theorem test_branches_on_latches :
    after { start [0x34, 0x20] 0 0 with ibuf := { buf := 0, flag := true } } (fun t => t.pc.toNat) = some 2 ∧
    after { start [0x3C, 0x20] 0 0 with obuf := { buf := 0, flag := true } } (fun t => t.pc.toNat) =
      some 0x20 := by decide

/-- Section 2.6. -/
theorem test_jal :
    after (startAt 0x04 [0x0A, 0x10] 0x15 0) (fun t => (t.acc, fetchRegs t)) = some (0x06, (0x10, 5, 0x0A)) ∧
    after (startAt 0xFE [0x0A, 0x80] 0x15 0) (fun t => (t.acc, t.pc)) = some (0x00, 0x80) := by decide
theorem test_jr :
    after (startAt 0x19 [0x0B] 0x06 0) (fun t => (t.acc, fetchRegs t)) = some (0x06, (6, 0x19, 0x0B)) := by
  decide

/-- Section 2.7. -/
theorem test_nop : after (start [0x07] 0 0) fetchRegs = some (1, 0, 0x07) ∧
    after (startAt 0x1FF [] 0 0) (fun t => (fetchRegs t, t.status)) =
      some ((0x200, 0x1FF, 0x00), some .continue) := by decide
theorem test_hlt : after (start [0x08] 0 0) (fun t => (fetchRegs t, t.run, t.status)) =
      some ((1, 0, 0x08), .halted, some (.halted .hlt)) ∧
    after (startAt 5 [0x0F] 0 0) (fun t => (t.pc.toNat, t.status)) = some (6, some (.halted .hlt)) := by decide
theorem test_already_halted :
    let s := { start [0x62, 0x05] 0x07 0 with run := .halted }
    after s (fun t => t) = some { s with status := some (.halted .alreadyHalted) } := by decide
theorem test_out : after { start [0x10] 0x09 0 with obuf := { buf := 0x08, flag := true } }
      (fun t => (t.obuf, t.pc.toNat)) = some ({ buf := 0x09, flag := true }, 1) := by decide
theorem test_in :
    after { start [0x18] 0 0 (flagsOf 1 0 1 0) with ibuf := { buf := 0x81, flag := true } }
      (fun t => (t.acc, t.ibuf, t.flags)) = some (0x81, { buf := 0x81, flag := false }, flagsOf 1 0 1 0) ∧
    after { start [0x1F] 0 0 with ibuf := { buf := 0x33, flag := false } } (fun t => (t.acc, t.ibuf)) =
      some (0x33, { buf := 0x33, flag := false }) := by decide
theorem test_rcf : after (startAt 5 [0x20] 0 0 (flagsOf 1 0 0 1)) (fun t => (t.flags, t.pc.toNat)) =
    some (flagsOf 0 0 0 1, 6) := by decide
theorem test_scf : after (start [0x2F] 0 0 (flagsOf 0 1 1 0)) (fun t => (t.flags, t.pc.toNat)) =
    some (flagsOf 1 1 1 0, 1) := by decide

/-- Section 2.8. -/
theorem test_illegal :
    after (start [0x5F] 0 0) (fun t => (fetchRegs t, t.run, t.status)) =
      some ((1, 0, 0x5F), .halted, some (.halted (.illegalOpcode 0x5F))) := by decide
/-- Section 2.8: the three rows at the end of memory, and R205's priority. -/
theorem test_fetch_out_of_range :
    after { startAt 0x200 [] 0 0 with mar := 0x1FF } (fun t => (fetchRegs t, t.status)) =
      some ((0x200, 0x1FF, 0), some (.halted (.addressOutOfRange 0x200))) ∧
    after (startAt 0x1FF [0x72] 0 0) (fun t => (fetchRegs t, t.status)) =
      some ((0x200, 0x1FF, 0x72), some (.halted (.addressOutOfRange 0x200))) ∧
    after (startAt 0x1FF [0x31] 0 0) (fun t => (fetchRegs t, t.status)) =
      some ((0x200, 0x1FF, 0x31), some (.halted (.addressOutOfRange 0x200))) := by decide

/-- The largest memory: at 0xFFFF a second word is out of range (R90, R140), and NOP's `pc` is modulo 2^16 (R70). -/
theorem test_end_of_the_largest_memory :
    let p := { defaultParams with memSize := 0x10000 }
    after { startAt 0xFFFF [0x62] 7 0 with params := p } (fun t => (t.acc, fetchRegs t, t.status)) =
      some (7, (0, 0xFFFF, 0x62), some (.halted (.addressOutOfRange 0x10000))) ∧
    after { startAt 0xFFFF [0x30] 0 0 with params := p } (fun t => (fetchRegs t, t.status)) =
      some ((0, 0xFFFF, 0x30), some (.halted (.addressOutOfRange 0x10000))) ∧
    after { startAt 0xFFFF [0x07] 0 0 with params := p } (fun t => (fetchRegs t, t.status)) =
      some ((0, 0xFFFF, 0x07), some .continue) := by decide

/-- Section 2.9. -/
theorem test_reset :
    let s := { startAt 0x20 [0x0F] 7 8 (flagsOf 1 1 1 1) with run := .halted, ibuf := { buf := 3, flag := true } }
    let t := envAct (.reset [0x62, 0x05]) s
    regs t = (0, 0, flagsOf 0 0 0 0) ∧ fetchRegs t = (0, 0, 0) ∧ t.mem = [(0, 0x62), (1, 0x05)] ∧
    t.obuf = { buf := 0, flag := false } ∧ t.ibuf = { buf := 3, flag := true } ∧ t.run = .running := by decide
theorem test_environment :
    let s := { State.reset with obuf := { buf := 8, flag := true } }
    (envAct .setInputFlag (envAct (.writeInput 0x81) s)).ibuf = { buf := 0x81, flag := true } ∧
    (envAct .clearOutputFlag s).obuf = { buf := 8, flag := false } ∧
    peek (start [] 1 2 (flagsOf 0 0 0 1)) = { acc := 1, ix := 2, pc := 0, flags := flagsOf 0 0 0 1 } := by decide
theorem test_memory_write_keeps_the_form :
    Memory.write [(1, 5), (3, 7)] 3 0 = [(1, 5)] ∧ Memory.write [(1, 5)] 0 9 = [(0, 9), (1, 5)] ∧
    Memory.wf [(1, 5), (1, 7)] = false ∧ Memory.wf [(1, 0)] = false := by decide

/-! ## Witnesses: values that meet the hypotheses of the statements -/

theorem witness_DecodeOfEncodeIsTheInstruction : (Instr.st .ix 7 0xFF).wellFormed = true ∧
    (Instr.stIllegalMode .acc 0 0).wellFormed = true ∧ (Instr.cmp .ix (.imm true 1)).wellFormed = true := by decide

theorem witness_EncodeOfDecodeIsTheWords : decode [0x7B, 0x10, 0x99] = .ok (.stIllegalMode .ix 3 0x10, [0x99]) ∧
    decode [0x5A, 0x10] = .ok (.illegal 10, [0x10]) := ⟨rfl, rfl⟩

theorem witness_DecoderRefusesOnlyMissingWords : decode [] = .error .noFirstWord ∧
    decode [0x62] = .error .noSecondWord ∧ needsSecond 0x62 = true := ⟨rfl, rfl, rfl⟩

/-- Both clauses of the step statement, the second with the last two words of memory. -/
theorem witness_StepRunsTheDecodedInstruction :
    ((startAt 0x1FF [0x41] 0 0).canFetchOne ∧
      decode [(startAt 0x1FF [0x41] 0 0).opcode] = .ok (.sla .acc, [])) ∧
    ((startAt 0x1FE [0x0A, 0x10] 0 0).canFetchTwo ∧
      decode [(startAt 0x1FE [0x0A, 0x10] 0 0).opcode, (startAt 0x1FE [0x0A, 0x10] 0 0).secondWord] =
        .ok (.jal 0x10, [])) :=
  ⟨⟨⟨rfl, by decide⟩, rfl⟩, ⟨⟨⟨rfl, by decide⟩, by decide⟩, rfl⟩⟩

theorem witness_OpcodeFetchOutOfRangeHalts : (startAt 0x200 [] 0 0).run = .running ∧
    (startAt 0x200 [] 0 0).params.memSize ≤ (startAt 0x200 [] 0 0).pc.toNat := by decide

theorem witness_SecondWordFetchOutOfRangeHalts : (startAt 0x1FF [0x72] 0 0).canFetchOne ∧
    needsSecond (startAt 0x1FF [0x72] 0 0).opcode = true ∧
    (startAt 0x1FF [0x72] 0 0).params.memSize ≤ (startAt 0x1FF [0x72] 0 0).pc.toNat + 1 :=
  ⟨⟨rfl, by decide⟩, by decide, by decide⟩

/-- A two-word and a one-word instruction at the last address where two words fit. -/
theorem witness_SecondWordExactlyByTheLengthRule :
    (startAt 0x1FE [0x0A, 0x10] 0 0).canFetchTwo ∧ (startAt 0x1FE [0x0A, 0x10] 0 0).opcode = 0x0A ∧
    (startAt 0x1FE [0x0B] 0 0).canFetchTwo ∧ (startAt 0x1FE [0x0B] 0 0).opcode = 0x0B :=
  ⟨⟨⟨rfl, by decide⟩, by decide⟩, rfl, ⟨⟨rfl, by decide⟩, by decide⟩, rfl⟩

/-- A halted state: of the steps and runs of a halted machine. -/
def halted : State := { start [0x62, 0x05] 7 8 (flagsOf 1 0 0 0) with run := .halted, status := some (.halted .hlt) }

theorem witness_StepOfAHaltedMachineChangesNothing : halted.run = .halted := rfl

theorem witness_OnlyResetLeavesTheHaltedState : halted.run = .halted ∧
    halted.ibuf = State.reset.ibuf ∧ halted.params = State.reset.params ∧ halted ≠ State.reset := by decide

/-- A state with registers and memory in use meets the invariant, and steps. -/
theorem witness_EveryStepKeepsTheInvariant :
    (start [0x75, 0x10] 0x50 7).Inv ∧ ∃ t, step (start [0x75, 0x10] 0x50 7) = .next t ∧ t.mem.read 0x110 = 0x50 :=
  ⟨⟨by decide, by decide, by decide, by decide, by decide, by decide⟩, _, rfl, by decide⟩

theorem witness_ReachableStatesMeetTheInvariant :
    Reachable (envAct (.writeInput 0x81) (State.reset.resetWith [0x62, 0x05])) :=
  .env _ _ (.reset _ _ (by decide))

/-- One step for each fault reason: of the statements about faults. -/
theorem witness_FaultsArePrecise :
    (∃ t, step (start [0x50] 0 0) = .next t ∧ t.status = some (.halted (.illegalOpcode 0x50)) ∧
      (HaltReason.illegalOpcode 0x50).isFault = true) ∧
    (∃ t, step (start [0x72, 0x33] 9 0) = .next t ∧ t.status = some (.halted (.illegalStoreMode 0x72)) ∧
      (HaltReason.illegalStoreMode 0x72).isFault = true) ∧
    (∃ t, step (start [0x77, 0xF0] 9 0x20) = .next t ∧ t.status = some (.halted (.addressOutOfRange 0x210)) ∧
      (HaltReason.addressOutOfRange 0x210).isFault = true) :=
  ⟨⟨_, rfl, rfl, rfl⟩, ⟨_, rfl, rfl, rfl⟩, ⟨_, rfl, rfl, rfl⟩⟩

/-- Each fault reason, and each of the three accesses that can be out of range. -/
theorem witness_FaultReasonsNameTheirCause :
    (∃ t, step (startAt 0x1FF [0x5F] 0 0) = .next t ∧ t.status = some (.halted (.illegalOpcode 0x5F))) ∧
    (∃ t, step (startAt 0x1FE [0x7B, 0] 0 0) = .next t ∧ t.status = some (.halted (.illegalStoreMode 0x7B))) ∧
    (startAt 0x200 [] 0 0).params.legal = true ∧
    (∃ t, step (startAt 0x200 [] 0 0) = .next t ∧ t.status = some (.halted (.addressOutOfRange 0x200)) ∧
      t.pc = 0x200) ∧
    (∃ t, step (startAt 0x1FF [0x31] 0 0) = .next t ∧ t.status = some (.halted (.addressOutOfRange 0x200)) ∧
      t.pc = 0x200 ∧ t.ir = 0x31) ∧
    (∃ t, step (start [0x67, 0xFF] 0 0x01) = .next t ∧ t.status = some (.halted (.addressOutOfRange 0x200)) ∧
      t.pc = 2) ∧
    (∃ t, step (start [0x7F, 0xFF] 0 0x01) = .next t ∧ t.status = some (.halted (.addressOutOfRange 0x200)) ∧
      t.mar = 1) :=
  ⟨⟨_, rfl, rfl⟩, ⟨_, rfl, rfl⟩, rfl, ⟨_, rfl, rfl, rfl⟩, ⟨_, rfl, rfl, rfl, rfl⟩, ⟨_, rfl, rfl, rfl⟩,
    ⟨_, rfl, rfl, rfl⟩⟩

/-- A running step that continues, one that halts with HLT, one that halts with a fault. -/
theorem witness_RunningStepContinuesOrHaltsWithAReason :
    (start [0x00] 0 0).run = .running ∧ (∃ t, step (start [0x00] 0 0) = .next t ∧ t.run = .running) ∧
    (∃ t, step (start [0x0F] 0 0) = .next t ∧ t.status = some (.halted .hlt)) ∧
    (∃ t, step (start [0x5F] 0 0) = .next t ∧ t.run = .halted) :=
  ⟨rfl, ⟨_, rfl, rfl⟩, ⟨_, rfl, rfl⟩, ⟨_, rfl, rfl⟩⟩

theorem witness_MarIsNeverObserved : (start [0x62, 0x05] 0 0).canFetchOne ∧
    ∃ t, step (start [0x62, 0x05] 0 0) = .next t ∧ t.mar = 1 := ⟨⟨rfl, by decide⟩, _, rfl, rfl⟩

/-- The frames over all instructions: an instruction that answers a next state and does not store. -/
theorem witness_OnlyStoresWriteMemory : (Instr.sbc .ix .acc).wellFormed = true ∧
    (∀ a b d, Instr.sbc .ix .acc ≠ .st a b d) ∧
    ∃ t, exec (.sbc .ix .acc) (start [0x88] 3 5) = .next t ∧ t.ix = 2 :=
  ⟨rfl, by intros; simp, _, rfl, by decide⟩

/-- The clauses of the table of flags: a kept carry, a cleared overflow, flags kept, flags kept by a stop. -/
theorem witness_FlagsChangeOnlyByTheTable :
    (∃ t, exec (.and .acc .ix) (start [] 1 3 (flagsOf 1 1 1 1)) = .next t ∧ t.status = some .continue) ∧
    (∃ t, exec (.sll .acc) (start [] 1 3 (flagsOf 1 1 1 1)) = .next t ∧ t.flags.vf = false) ∧
    (∃ t, exec (.scf 0) (start [] 1 3) = .next t ∧ t.flags.cf = true) ∧
    (∃ t, exec (.ld .acc .ix) (start [] 1 3 (flagsOf 1 1 1 1)) = .next t ∧ t.flags = flagsOf 1 1 1 1) ∧
    (∃ t, exec (.add .acc (.mem .ixData 0xFF)) (start [] 1 1) = .next t ∧ t.status ≠ some .continue) :=
  ⟨⟨_, rfl, rfl⟩, ⟨_, rfl, rfl⟩, ⟨_, rfl, rfl⟩, ⟨_, rfl, rfl⟩, ⟨_, rfl, by decide⟩⟩

/-- The clauses of the table of registers, of the latches and of the program counter. -/
theorem witness_RegistersChangeOnlyByTheTable :
    (∃ t, exec (.jal 0x10) (startAt 6 [] 1 3) = .next t ∧ t.acc = 6 ∧ t.ix = 3) ∧
    (∃ t, exec (.add .ix .ix) (start [] 1 3) = .next t ∧ t.acc = 1 ∧ t.ix = 6) ∧
    (∃ t, exec (.cmp .ix .acc) (start [] 1 3) = .next t ∧ t.acc = 1 ∧ t.ix = 3) :=
  ⟨⟨_, rfl, by decide, rfl⟩, ⟨_, rfl, rfl, by decide⟩, ⟨_, rfl, rfl, rfl⟩⟩

theorem witness_LatchesChangeOnlyByOutAndIn :
    (∃ t, exec (.out 0) (start [] 1 3) = .next t ∧ t.obuf = { buf := 1, flag := true }) ∧
    (∀ x, Instr.out 0 ≠ .inp x) ∧ (∀ x, Instr.inp 0 ≠ .out x) ∧
    (∃ t, step { start [0x00] 1 3 with
      obuf := { buf := 1, flag := true }, ibuf := { buf := 1, flag := true } } = .next t ∧
      t.obuf.flag = true ∧ t.ibuf.flag = true) :=
  ⟨⟨_, rfl, rfl⟩, by simp, by simp, ⟨_, rfl, rfl, rfl⟩⟩

theorem witness_PcChangesOnlyByControlTransfers :
    (∃ t, exec (.bnz 0x04) (startAt 0x0C [] 0 0) = .next t ∧ t.pc = 4) ∧
    (∃ t, exec (.bnz 0x04) (startAt 0x0C [] 0 0 (flagsOf 0 0 0 1)) = .next t ∧ t.pc = 0x0C) ∧
    (∃ t, exec .jr (startAt 0x1A [] 6 0) = .next t ∧ t.pc = 6) :=
  ⟨⟨_, rfl, rfl⟩, ⟨_, rfl, rfl⟩, ⟨_, rfl, rfl⟩⟩

/-- Mode 7 at the last address that exists and at the first that does not. -/
theorem witness_OperandBInEveryMode : (start [] 0 0x10).params.legal = true ∧
    0x100 + (0xEF : Byte).toNat + (start [] 0 0x10).ix.toNat < (start [] 0 0x10).params.memSize ∧
    (start [] 0 0x10).params.memSize ≤ 0x100 + (0xF0 : Byte).toNat + (start [] 0 0x10).ix.toNat := by decide

theorem witness_MemoryAccessIsBounded : (start [0x62, 0x05] 0 0).mem.wf = true ∧
    0x1FF < (start [0x62, 0x05] 0 0).params.memSize ∧ (start [0x62, 0x05] 0 0).params.memSize ≤ 0x200 := by decide

/-- Operand B in each of its forms: of LD, the arithmetic and the logic statements. -/
theorem witness_LoadResult : readB .acc (start [] 1 3) = .ok 1 ∧ readB .ix (start [] 1 3) = .ok 3 ∧
    readB (.imm true 5) (start [] 1 3) = .ok 5 ∧
    readB (.mem .absText 1) (start [0x64, 0x01] 1 3) = .ok 1 ∧
    readB (.mem .absData 0xFF) (poke 0x1FF 9 (start [] 1 3)) = .ok 9 ∧
    readB (.mem .ixText 0xFF) (poke 0x1FE 9 (start [] 1 0xFF)) = .ok 9 ∧
    readB (.mem .ixData 0xFC) (poke 0x1FF 9 (start [] 1 3)) = .ok 9 := ⟨rfl, rfl, rfl, rfl, rfl, rfl, rfl⟩

/-- The corners of operand B that SUB and CMP single out, and the two values of the carry. -/
theorem witness_SubtractResultAndFlags : readB (.imm false 0) (start [] 5 0) = .ok 0 ∧
    readB (.imm false 0x80) (start [] 5 0) = .ok 0x80 ∧
    readB (.imm false 0x7F) (start [] 5 0 (flagsOf 1 0 0 0)) = .ok 0x7F := ⟨rfl, rfl, rfl⟩

/-- The four storable modes, mode 7 at the last address that exists. -/
theorem witness_StoreResult : (start [] 5 0x10).mem.wf = true ∧
    (0xFF : Byte).toNat < (start [] 5 0x10).params.memSize ∧
    0x100 + (0xFF : Byte).toNat < (start [] 5 0x10).params.memSize ∧
    (0xFF : Byte).toNat + (start [] 5 0x10).ix.toNat < (start [] 5 0x10).params.memSize ∧
    0x100 + (0xEF : Byte).toNat + (start [] 5 0x10).ix.toNat < (start [] 5 0x10).params.memSize := by decide

theorem witness_StoreInAnIllegalModeHalts : (0 : BitVec 3).toNat < 4 ∧ (3 : BitVec 3).toNat < 4 := by decide

theorem witness_IndexedDataAccessOutOfRangeHalts :
    (start [] 5 0x01).params.memSize ≤ 0x100 + (0xFF : Byte).toNat + (start [] 5 0x01).ix.toNat := by decide

theorem witness_CarryClearMakesAdcAddAndSbcSub : (start [] 5 0x01).flags.cf = false := rfl

/-- CMP of 5 with 3, with 0 and with 0x80. -/
theorem witness_BranchesAfterCompareOrderTheOperands :
    (start [] 5 0).params.ccTable = defaultCcTable ∧
    (readB (.imm false 3) (start [] 5 0) = .ok 3 ∧
      ∃ t, exec (.cmp .acc (.imm false 3)) (start [] 5 0) = .next t ∧ t.flags = flagsOf 1 0 0 0) ∧
    (readB (.imm false 0) (start [] 5 0) = .ok 0 ∧
      ∃ t, exec (.cmp .acc (.imm false 0)) (start [] 5 0) = .next t ∧ t.flags = flagsOf 0 0 0 0) ∧
    (readB (.imm false 0x80) (start [] 0x7F 0) = .ok 0x80 ∧
      ∃ t, exec (.cmp .acc (.imm false 0x80)) (start [] 0x7F 0) = .next t ∧ t.flags = flagsOf 0 0 1 0) :=
  ⟨rfl, ⟨rfl, _, rfl, by decide⟩, ⟨rfl, _, rfl, by decide⟩, ⟨rfl, _, rfl, by decide⟩⟩

theorem witness_AluInstructionsTakeEveryOperand :
    ∃ t, exec (.cmp .ix (.mem .absData 0x10)) (start [] 1 3) = .next t ∧ t.ix = 3 := ⟨_, rfl, rfl⟩

/-- A branch whose second word is the last word of memory, and one that has none. -/
theorem witness_BranchStep :
    ((startAt 0x1FE [0x31, 0x20] 0 0).canFetchOne ∧ (startAt 0x1FE [0x31, 0x20] 0 0).opcode.toNat / 16 = 3 ∧
      (startAt 0x1FE [0x31, 0x20] 0 0).pc.toNat + 1 < (startAt 0x1FE [0x31, 0x20] 0 0).params.memSize) ∧
    ((startAt 0x1FF [0x3F] 0 0).canFetchOne ∧ (startAt 0x1FF [0x3F] 0 0).opcode.toNat / 16 = 3 ∧
      (startAt 0x1FF [0x3F] 0 0).params.memSize ≤ (startAt 0x1FF [0x3F] 0 0).pc.toNat + 1) :=
  ⟨⟨⟨rfl, by decide⟩, rfl, by decide⟩, ⟨⟨rfl, by decide⟩, rfl, by decide⟩⟩

/-- Both values of `ROR_FILL`: of the statements about rotates to the right. -/
theorem witness_RotateRightResultsAndFlags : (start [] 5 0).params.rorFill = .bit0 ∧
    ({ start [] 5 0 with params := { defaultParams with rorFill := .oldCf } } : State).params.rorFill = .oldCf :=
  ⟨rfl, rfl⟩

theorem witness_BranchesWithTheDefaultTable : State.reset.params.ccTable = defaultCcTable := rfl

/-- A JAL at the highest address of the statement, 0xFD, and a JR at its target. -/
theorem witness_JalThenJrReturns :
    let s := poke 0x03 0x0B (startAt 0xFD [0x0A, 0x03] 0 0)
    s.params.legal = true ∧ s.run = .running ∧ s.pc.toNat = 0xFD ∧ s.opcode = 0x0A ∧
      s.mem.read s.secondWord.toNat = 0x0B := by decide

/-- The ends of the ranges of first words, at the last address of memory. -/
theorem witness_NopStep : (startAt 0x1FF [0x07] 0 0).canFetchOne ∧ (startAt 0x1FF [0x07] 0 0).opcode.toNat ≤ 7 :=
  ⟨⟨rfl, by decide⟩, by decide⟩
theorem witness_HltStep : (startAt 0x1FF [0x0F] 0 0).canFetchOne ∧
    (startAt 0x1FF [0x0F] 0 0).opcode.toNat = 0x0F ∧ (start [0x08] 0 0).canFetchOne ∧
    (start [0x08] 0 0).opcode.toNat = 0x08 := ⟨⟨rfl, by decide⟩, rfl, ⟨rfl, by decide⟩, rfl⟩
theorem witness_IllegalOpcodeStep : (startAt 0x1FF [0x50] 0 0).canFetchOne ∧
    (startAt 0x1FF [0x50] 0 0).opcode.toNat / 16 = 5 ∧ (start [0x5F] 0 0).canFetchOne ∧
    (start [0x5F] 0 0).opcode.toNat / 16 = 5 ∧
    ∃ t, step (start [0x5F] 0 0) = .next t ∧ t.status = some (.halted (.illegalOpcode 0x5F)) :=
  ⟨⟨rfl, by decide⟩, rfl, ⟨rfl, by decide⟩, rfl, _, rfl, rfl⟩

/-- A store of the word 0x0F at the address that follows it. -/
theorem witness_StoredWordIsFetchedByTheNextStep :
    let s := start [0x74, 0x02] 0x0F 0
    s.mem.wf = true ∧ s.canFetchTwo ∧ (s.pc + 2).toNat < s.params.memSize ∧
      decode [s.opcode, s.secondWord] = .ok (.st .acc 4 0x02, []) ∧ modeOfField 4 = .mem .absText ∧
      effectiveAddress .absText 0x02 s = (s.pc + 2).toNat :=
  ⟨by decide, ⟨⟨rfl, by decide⟩, by decide⟩, by decide, rfl, rfl, rfl⟩

theorem witness_ResetInstallsTheImage :
    (List.replicate 0x200 (0x62 : Byte)).length = State.reset.params.memSize ∧ halted.run = .halted ∧
    (∀ image, EnvAction.setInputFlag ≠ .reset image) := ⟨List.length_replicate, rfl, by simp⟩

/-- A load at the last address where two words fit, and one where they do not. -/
theorem witness_LoadedInstructionRunsNext : (startAt 0x1FE [] 0 0).params.legal = true ∧
    (startAt 0x1FE [] 0 0).mem.wf = true ∧ decodeTableWord 16 0x100A = some (.jal 0x10) ∧
    loadAddress (startAt 0x1FE [] 0 0) = 0x1FE ∧ loadAddress (startAt 0x1FF [] 0 0) = 0 := by decide

end Sys2Proof.Tests
end

/-! PROOFS. The length rule (R58): which first words have a second word, and what the decoder and the fetch
unit do by it. -/

namespace Sys2Proof.Machine

/-! ## The fields of the first word as numbers -/

theorem fieldOp_toNat (w : Byte) : (fieldOp w).toNat = w.toNat / 16 := by
  have := w.isLt
  simp only [fieldOp, BitVec.extractLsb'_toNat, Nat.shiftRight_eq_div_pow]
  omega

theorem fieldB_toNat (w : Byte) : (fieldB w).toNat = w.toNat % 8 := by
  simp only [fieldB, BitVec.extractLsb'_toNat, Nat.shiftRight_zero]

/-! ## The length rule -/

/-- R58 on the number of the first word: JAL, the branches, ST, and LD and the ALU instructions with `b`
of 2 or more. -/
def LengthRule (n : Nat) : Prop :=
  n = 0x0A ∨ (0x30 ≤ n ∧ n ≤ 0x3F) ∨ (0x70 ≤ n ∧ n ≤ 0x7F) ∨
    (((0x60 ≤ n ∧ n ≤ 0x6F) ∨ 0x80 ≤ n) ∧ 2 ≤ n % 8)

/-- The tests of `needsSecond`, in its order, are the cases of the length rule. -/
theorem needsSecond_iff_lengthRule (w : Byte) : needsSecond w = true ↔ LengthRule w.toNat := by
  have hop := fieldOp_toNat w
  have hb := fieldB_toNat w
  have hw := w.isLt
  simp only [needsSecond, LengthRule, BitVec.toNat_eq, BitVec.le_def, BitVec.reduceToNat, hop, hb]
  split_ifs
  next hJal => simp only [true_iff]; omega
  next hBranch => simp only [true_iff]; omega
  next hStore => simp only [true_iff]; omega
  next hLoad => simp only [decide_eq_true_eq]; omega
  next hAlu => simp only [decide_eq_true_eq]; omega
  next => simp only [false_iff]; omega

/-! ## The decoder and the fetch unit by the length rule -/

theorem decode_two_words {w : Byte} (d : Byte) (rest : List Byte) (h : needsSecond w = true) :
    decode (w :: d :: rest) = .ok (decodeWords w d, rest) := if_pos h

theorem decode_one_word {w : Byte} (rest : List Byte) (h : needsSecond w = false) :
    decode (w :: rest) = .ok (decodeWords w 0, rest) := if_neg (by simp [h])

/-- Settles O4: both clauses turn on `needsSecond`, which is the length rule. -/
theorem secondWordExactlyByTheLengthRule : Obligations.SecondWordExactlyByTheLengthRule := by
  intro w two
  have rule : needsSecond w = true ↔ two := needsSecond_iff_lengthRule w
  cases hn : needsSecond w
  case true =>
    have ht : two := rule.mp hn
    refine ⟨fun d rest => ⟨decodeWords w d, ?_⟩, fun s hs hw => ?_⟩
    · rw [if_pos ht]
      exact decode_two_words d rest hn
    · subst hw
      exact ⟨_, _, fetchInstr_two hs hn, (if_pos ht).symm⟩
  case false =>
    have ht : ¬ two := fun h => by simp [rule.mpr h] at hn
    refine ⟨fun d rest => ⟨decodeWords w 0, ?_⟩, fun s hs hw => ?_⟩
    · rw [if_neg ht]
      exact decode_one_word (d :: rest) hn
    · subst hw
      exact ⟨_, _, fetchInstr_one hs.1 hn, (if_neg ht).symm⟩

end Sys2Proof.Machine

/-! PROOFS. The eight ALU instructions (R113): format M over every operand, no write to memory or `pc`, and
no memory read in the register modes. -/

namespace Sys2Proof.Machine

/-! ## Every value of the two operand fields -/

theorem exists_regSel_of_bit (x : BitVec 1) : ∃ a : RegSel, a.bit = x := by
  have hx : x = 0 ∨ x = 1 := by revert x; decide
  obtain rfl | rfl := hx
  · exact ⟨.acc, rfl⟩
  · exact ⟨.ix, rfl⟩

/-- The decoder's reading of the mode field keeps the field, the second value of mode immediate included (R55). -/
theorem operandOfFields_bits (x : BitVec 3) (d : Byte) : (operandOfFields x d).bits = x := by
  have hx : x = 0 ∨ x = 1 ∨ x = 2 ∨ x = 3 ∨ x = 4 ∨ x = 5 ∨ x = 6 ∨ x = 7 := by revert x; decide
  obtain rfl | rfl | rfl | rfl | rfl | rfl | rfl | rfl := hx <;> rfl

/-! ## Operands and a memory that differs -/

@[simp] theorem readA_setMem (a : RegSel) (m : Memory) (s : State) : readA a (s.setMem m) = readA a s := by
  cases a <;> rfl

theorem writeA_setMem (a : RegSel) (v : Byte) (m : Memory) (s : State) :
    writeA a v (s.setMem m) = (writeA a v s).setMem m := by
  cases a <;> rfl

/-- In the modes 0 and 1 operand B is a register's value, whatever the memory holds (R76). -/
theorem readB_register {b : OperandB} (hb : b = .acc ∨ b = .ix) (s : State) :
    ∃ v, readB b s = .ok v ∧ ∀ m, readB b (s.setMem m) = .ok v := by
  obtain rfl | rfl := hb
  · exact ⟨s.acc, rfl, fun _ => rfl⟩
  · exact ⟨s.ix, rfl, fun _ => rfl⟩

theorem setFlags_setMem (f : Flags) (m : Memory) (s : State) :
    (s.setMem m).setFlags f = (s.setFlags f).setMem m := rfl

theorem complete_setMem (m : Memory) (s : State) :
    complete (s.setMem m) = .next ((s.setStatus (some .continue)).setMem m) := rfl

/-! ## What a meaning over operand B keeps, and what it does not depend on -/

/-- A meaning that writes neither memory nor `pc`. -/
def KeepsMemAndPc (meaning : State → Result) : Prop :=
  ∀ s t, meaning s = .next t → t.mem = s.mem ∧ t.pc = s.pc

/-- A meaning that completes with the same outcome on every memory, and leaves that memory as it was. -/
def IgnoresMemory (meaning : State → Result) : Prop :=
  ∀ s m, ∃ t, meaning s = .next t ∧ meaning (s.setMem m) = .next (t.setMem m)

theorem complete_keeps {s s' t : State} (hmem : s'.mem = s.mem) (hpc : s'.pc = s.pc)
    (h : complete s' = .next t) : t.mem = s.mem ∧ t.pc = s.pc := by
  rw [complete_eq_next.mp h]
  exact ⟨hmem, hpc⟩

theorem enterHalt_keeps {r : HaltReason} {s t : State} (h : enterHalt r s = .next t) :
    t.mem = s.mem ∧ t.pc = s.pc := by
  rw [enterHalt_eq_next.mp h]
  exact ⟨rfl, rfl⟩

theorem aluWrite_keepsMemAndPc (f : Byte → Byte → Flags → AluOut) (a : RegSel) (b : OperandB) :
    KeepsMemAndPc (aluWrite f a b) := by
  intro s t h
  obtain ⟨v, -, hdone⟩ | ⟨m, d, -, -, hfault⟩ := aluWrite_cases f a b s
  · exact complete_keeps (by simp) (by simp) (hdone.symm.trans h)
  · exact enterHalt_keeps (hfault.symm.trans h)

theorem aluCompare_keepsMemAndPc (f : Byte → Byte → Flags → AluOut) (a : RegSel) (b : OperandB) :
    KeepsMemAndPc (aluCompare f a b) := by
  intro s t h
  obtain ⟨v, -, hdone⟩ | ⟨m, d, -, -, hfault⟩ := aluCompare_cases f a b s
  · exact complete_keeps (by simp) (by simp) (hdone.symm.trans h)
  · exact enterHalt_keeps (hfault.symm.trans h)

theorem aluWrite_of_ok (f : Byte → Byte → Flags → AluOut) (a : RegSel) {b : OperandB} {s : State}
    {v : Byte} (h : readB b s = .ok v) : aluWrite f a b s =
      complete (writeA a (f (readA a s) v s.flags).result (s.setFlags (f (readA a s) v s.flags).flags)) :=
  withB_of_ok _ h

theorem aluCompare_of_ok (f : Byte → Byte → Flags → AluOut) (a : RegSel) {b : OperandB} {s : State}
    {v : Byte} (h : readB b s = .ok v) :
    aluCompare f a b s = complete (s.setFlags (f (readA a s) v s.flags).flags) :=
  withB_of_ok _ h

theorem aluWrite_ignoresMemory (f : Byte → Byte → Flags → AluOut) (a : RegSel) {b : OperandB}
    (hb : b = .acc ∨ b = .ix) : IgnoresMemory (aluWrite f a b) := by
  intro s m
  obtain ⟨v, hv, hvm⟩ := readB_register hb s
  refine ⟨_, aluWrite_of_ok f a hv, (aluWrite_of_ok f a (hvm m)).trans ?_⟩
  rw [readA_setMem, State.setMem_flags, setFlags_setMem, writeA_setMem, complete_setMem]

theorem aluCompare_ignoresMemory (f : Byte → Byte → Flags → AluOut) (a : RegSel) {b : OperandB}
    (hb : b = .acc ∨ b = .ix) : IgnoresMemory (aluCompare f a b) := by
  intro s m
  obtain ⟨v, hv, hvm⟩ := readB_register hb s
  refine ⟨_, aluCompare_of_ok f a hv, (aluCompare_of_ok f a (hvm m)).trans ?_⟩
  rw [readA_setMem, State.setMem_flags, setFlags_setMem, complete_setMem]

/-! ## The eight instructions -/

/-- `i` is the ALU instruction with the upper nibble `op` over the operands `a` and `b`: format M, with a
meaning that either writes operand A or compares. -/
structure IsAluInstr (op : BitVec 4) (i : Instr) (a : RegSel) (b : OperandB) : Prop where
  wellFormed : i.wellFormed = true
  encode_eq : encode i = encodeM op a b
  exec_eq : ∃ f, exec i = aluWrite f a b ∨ exec i = aluCompare f a b

theorem IsAluInstr.of_write {op : BitVec 4} {i : Instr} {a : RegSel} {b : OperandB}
    (hwf : i.wellFormed = true) (henc : encode i = encodeM op a b) (f : Byte → Byte → Flags → AluOut)
    (hex : exec i = aluWrite f a b) : IsAluInstr op i a b := ⟨hwf, henc, f, .inl hex⟩

/-- The rows of the opcode table with the upper nibbles 8 to F (R53). -/
theorem isAluInstr_of_mem (a : RegSel) (b : OperandB) : ∀ p ∈ [((0x8 : BitVec 4), Instr.sbc a b),
    (0x9, .adc a b), (0xA, .sub a b), (0xB, .add a b), (0xC, .eor a b), (0xD, .or a b), (0xE, .and a b),
    (0xF, .cmp a b)], IsAluInstr p.1 p.2 a b := by
  simp only [List.forall_mem_cons]
  exact ⟨.of_write rfl rfl sbcOut rfl, .of_write rfl rfl adcOut rfl, .of_write rfl rfl subOut rfl,
    .of_write rfl rfl addOut rfl, .of_write rfl rfl eorOut rfl, .of_write rfl rfl orOut rfl,
    .of_write rfl rfl andOut rfl, ⟨rfl, rfl, subOut, .inr rfl⟩, by simp⟩

section
variable {op : BitVec 4} {i : Instr} {a : RegSel} {b : OperandB}

theorem IsAluInstr.keepsMemAndPc (h : IsAluInstr op i a b) : KeepsMemAndPc (exec i) := by
  obtain ⟨f, hwrite | hcompare⟩ := h.exec_eq
  · rw [hwrite]
    exact aluWrite_keepsMemAndPc f a b
  · rw [hcompare]
    exact aluCompare_keepsMemAndPc f a b

theorem IsAluInstr.ignoresMemory (h : IsAluInstr op i a b) (hb : b = .acc ∨ b = .ix) :
    IgnoresMemory (exec i) := by
  obtain ⟨f, hwrite | hcompare⟩ := h.exec_eq
  · rw [hwrite]
    exact aluWrite_ignoresMemory f a hb
  · rw [hcompare]
    exact aluCompare_ignoresMemory f a hb

theorem IsAluInstr.encode_length (h : IsAluInstr op i a b) (hb : b = .acc ∨ b = .ix) :
    (encode i).length = 1 := by
  rw [h.encode_eq]
  obtain rfl | rfl := hb <;> rfl

end

/-- Settles O43: every one of the eight is an `IsAluInstr`, and the clauses follow from that alone. -/
theorem aluInstructionsTakeEveryOperand : Obligations.AluInstructionsTakeEveryOperand := by
  refine ⟨exists_regSel_of_bit, fun x => ⟨_, operandOfFields_bits x 0⟩, fun a b p hp => ?_⟩
  have halu : IsAluInstr p.1 p.2 a b := isAluInstr_of_mem a b p hp
  exact ⟨halu.wellFormed, halu.encode_eq, halu.keepsMemAndPc,
    fun hb => ⟨halu.encode_length hb, halu.ignoresMemory hb⟩⟩

end Sys2Proof.Machine

/-! PROOFS. NOP and HLT (R180, R181): the one-word step, the rows of the upper nibble 0, and the two
instructions' whole steps. -/

namespace Sys2Proof.Machine

/-! ## The step of an instruction of one word -/

/-- R190, R70, R71: where the first word is in range and asks for no second, the step is the meaning of that word
on the state after the opcode fetch. -/
theorem step_one_word {s : State} (h : s.canFetchOne) (hn : needsSecond s.opcode = false) :
    step s = exec (decodeWords s.opcode 0) s.afterOne := by
  have hrun : s.run = .running := h.1
  simp only [step, hrun, fetchInstr_one h hn]

/-! ## The first words of the upper nibble 0 -/

/-- A bit of the first word as arithmetic on its number. -/
theorem getLsbD_eq_decide_div_mod (w : Byte) (i : Nat) :
    w.getLsbD i = decide (w.toNat / 2 ^ i % 2 = 1) := by
  rw [← BitVec.testBit_toNat, Nat.testBit_eq_decide_div_mod_eq]

/-- JAL is the only instruction of the upper nibble 0 with a second word (R58). -/
theorem needsSecond_eq_false_of_upper_zero {w : Byte} (hle : w.toNat ≤ 0x0F) (hJal : w ≠ 0x0A) :
    needsSecond w = false := by
  have hn : w.toNat ≠ 0x0A := fun h => hJal (BitVec.eq_of_toNat_eq h)
  rw [← Bool.not_eq_true, needsSecond_iff_lengthRule, LengthRule]
  omega

/-- What the decoder reads in the upper nibble 0 once JAL and JR are taken out (R53). -/
theorem decodeWords_of_upper_zero {w : Byte} (d : Byte) (hle : w.toNat ≤ 0x0F) (hJal : w ≠ 0x0A)
    (hJr : w ≠ 0x0B) : decodeWords w d =
      if !w.getLsbD 3 then .nop (fieldX w)
      else if !w.getLsbD 2 then .hlt (w.extractLsb' 0 1)
      else .hltHigh (w.extractLsb' 0 2) := by
  have hop : fieldOp w = 0 := BitVec.eq_of_toNat_eq ((fieldOp_toNat w).trans (Nat.div_eq_of_lt (by omega)))
  simp only [decodeWords, if_neg hJal, if_neg hJr, if_pos hop]

theorem decodeWords_nop {w : Byte} (d : Byte) (hle : w.toNat ≤ 0x07) :
    decodeWords w d = .nop (fieldX w) := by
  have hbit : w.getLsbD 3 = false := by
    rw [getLsbD_eq_decide_div_mod, decide_eq_false_iff_not]
    omega
  have hJal : w ≠ 0x0A := by rintro rfl; simp at hle
  have hJr : w ≠ 0x0B := by rintro rfl; simp at hle
  rw [decodeWords_of_upper_zero d (by omega) hJal hJr, hbit]
  rfl

/-- The table's two rows for HLT: bit 3 is set, bit 2 tells them apart. -/
theorem decodeWords_hlt {w : Byte} (d : Byte) (hge : 0x08 ≤ w.toNat) (hle : w.toNat ≤ 0x0F)
    (hJal : w ≠ 0x0A) (hJr : w ≠ 0x0B) :
    (∃ x, decodeWords w d = .hlt x) ∨ (∃ x, decodeWords w d = .hltHigh x) := by
  have hbit : w.getLsbD 3 = true := by
    rw [getLsbD_eq_decide_div_mod, decide_eq_true_iff]
    omega
  rw [decodeWords_of_upper_zero d hle hJal hJr, hbit]
  cases w.getLsbD 2
  case false => exact .inl ⟨_, rfl⟩
  case true => exact .inr ⟨_, rfl⟩

/-! ## The two meanings -/

theorem exec_nop (x : BitVec 3) (s : State) : exec (.nop x) s = .next s.done := rfl

theorem exec_hlt (x : BitVec 1) (s : State) : exec (.hlt x) s = .next (s.stopped .hlt) := rfl

theorem exec_hltHigh (x : BitVec 2) (s : State) : exec (.hltHigh x) s = .next (s.stopped .hlt) := rfl

/-! ## The two steps -/

/-- Settles O55: the opcode fetch is all that a NOP does. -/
theorem nopStep : Obligations.NopStep := by
  intro s h hle
  have hJal : s.opcode ≠ 0x0A := fun he => by simp [he] at hle
  have hn : needsSecond s.opcode = false := needsSecond_eq_false_of_upper_zero (by omega) hJal
  calc step s = exec (decodeWords s.opcode 0) s.afterOne := step_one_word h hn
    _ = .next s.afterOne.done := by rw [decodeWords_nop 0 hle, exec_nop]

/-- Settles O56: both rows for HLT stop the machine after the opcode fetch. -/
theorem hltStep : Obligations.HltStep := by
  intro s h hge hle hJal hJr
  have hn : needsSecond s.opcode = false := needsSecond_eq_false_of_upper_zero hle hJal
  refine ⟨?_, rfl⟩
  calc step s = exec (decodeWords s.opcode 0) s.afterOne := step_one_word h hn
    _ = .next (s.afterOne.stopped .hlt) := by
      obtain ⟨x, hdec⟩ | ⟨x, hdec⟩ := decodeWords_hlt 0 hge hle hJal hJr
      · rw [hdec, exec_hlt]
      · rw [hdec, exec_hltHigh]

end Sys2Proof.Machine

/-! PROOFS. The illegal first words (R61, R201): the rows of the upper nibble 5, which meanings report
`IllegalOpcode`, and the whole step in both directions. -/

namespace Sys2Proof.Machine

/-! ## The first words of the upper nibble 5 -/

/-- An illegal first word has no second word (R58). -/
theorem needsSecond_eq_false_of_upper_five {w : Byte} (h : w.toNat / 16 = 5) : needsSecond w = false := by
  rw [← Bool.not_eq_true, needsSecond_iff_lengthRule, LengthRule]
  omega

theorem fieldOp_eq_five_iff (w : Byte) : fieldOp w = 0x5 ↔ w.toNat / 16 = 5 := by
  rw [BitVec.toNat_eq, fieldOp_toNat]
  rfl

theorem decodeWords_illegal {w : Byte} (d : Byte) (h : w.toNat / 16 = 5) :
    decodeWords w d = .illegal (fieldCc w) := by
  have hop : fieldOp w = 0x5 := (fieldOp_eq_five_iff w).mpr h
  have hJal : w ≠ 0x0A := by rintro rfl; simp at h
  have hJr : w ≠ 0x0B := by rintro rfl; simp at h
  simp only [decodeWords, if_neg hJal, if_neg hJr, hop]
  rfl

theorem branchOfCc_ne_illegal (cc : BitVec 4) (t : Byte) (x : BitVec 4) : branchOfCc cc t ≠ .illegal x := by
  simp [branchOfCc, ite_eq_iff]

theorem shiftOfFields_ne_illegal (rsm : BitVec 3) (a : RegSel) (x : BitVec 4) :
    shiftOfFields rsm a ≠ .illegal x := by
  simp [shiftOfFields, ite_eq_iff]

/-- R61: the decoder finds no instruction in the upper nibble 5 alone. -/
theorem upper_five_of_decodeWords_eq_illegal {w d : Byte} {x : BitVec 4}
    (h : decodeWords w d = .illegal x) : w.toNat / 16 = 5 := by
  rw [← fieldOp_eq_five_iff]
  by_contra hop
  simp only [decodeWords, if_neg hop] at h
  simp [ite_eq_iff, branchOfCc_ne_illegal, shiftOfFields_ne_illegal] at h

/-! ## Ends of a meaning that are no `IllegalOpcode` -/

/-- The outcome `r` does not report `IllegalOpcode`, of whatever word. -/
def ReportsNoIllegalOpcode (r : Result) : Prop :=
  ∀ t w, r = .next t → t.status ≠ some (.halted (.illegalOpcode w))

theorem complete_reportsNoIllegalOpcode (s : State) : ReportsNoIllegalOpcode (complete s) := by
  intro t w h
  simp [complete_eq_next.mp h]

theorem enterHalt_reportsNoIllegalOpcode {r : HaltReason} (hr : ∀ w, r ≠ .illegalOpcode w) (s : State) :
    ReportsNoIllegalOpcode (enterHalt r s) := by
  intro t w h
  simp [enterHalt_eq_next.mp h, hr w]

theorem stayHalted_reportsNoIllegalOpcode (s : State) : ReportsNoIllegalOpcode (stayHalted s) := by
  intro t w h
  simp [stayHalted_eq_next.mp h]

theorem outOfRange_reportsNoIllegalOpcode (x : Nat) (s : State) :
    ReportsNoIllegalOpcode (enterHalt (.addressOutOfRange x) s) :=
  enterHalt_reportsNoIllegalOpcode (by simp) s

/-- Whatever reads operand B and then completes ends by `Continue` or by the operand's address. -/
theorem withB_reportsNoIllegalOpcode (b : OperandB) (s : State) (done : Byte → State) :
    ReportsNoIllegalOpcode (withB b s fun v => complete (done v)) := by
  obtain ⟨v, -, hdone⟩ | ⟨m, d, -, -, hfault⟩ := withB_cases b s fun v => complete (done v)
  · rw [hdone]
    exact complete_reportsNoIllegalOpcode _
  · rw [hfault]
    exact outOfRange_reportsNoIllegalOpcode _ s

theorem storeThrough_reportsNoIllegalOpcode (a : RegSel) (b : BitVec 3) (d : Byte) (s : State) :
    ReportsNoIllegalOpcode (storeThrough a b d s) := by
  obtain ⟨m, -, -, hdone⟩ | ⟨m, -, -, hrange⟩ | ⟨-, hmode⟩ := storeThrough_cases a b d s
  · rw [hdone]
    exact complete_reportsNoIllegalOpcode _
  · rw [hrange]
    exact outOfRange_reportsNoIllegalOpcode _ s
  · rw [hmode]
    exact enterHalt_reportsNoIllegalOpcode (by simp) s

/-! ## The meaning that reports `IllegalOpcode` -/

theorem exec_illegal (x : BitVec 4) (s : State) :
    exec (.illegal x) s = .next (s.stopped (.illegalOpcode s.ir)) := rfl

/-- Every meaning but that of the illegal first words is built from ends that report something else. -/
theorem exec_reportsNoIllegalOpcode {i : Instr} (hi : ∀ x, i ≠ .illegal x) (s : State) :
    ReportsNoIllegalOpcode (exec i s) := by
  cases i with
  | illegal x => exact absurd rfl (hi x)
  | hlt | hltHigh => exact enterHalt_reportsNoIllegalOpcode (r := .hlt) (by simp) s
  | st a b d | stIllegalMode a b d => exact storeThrough_reportsNoIllegalOpcode a b d s
  | ld a b | sbc a b | adc a b | sub a b | add a b | eor a b | or a b | and a b | cmp a b =>
    exact withB_reportsNoIllegalOpcode b s _
  | nop | jal | jr | out | inp | rcf | scf
  | sra | sla | srl | sll | rra | rla | rrl | rll
  | ba | bnz | bzp | bp | bni | bnc | bge | bgt
  | bvf | bz | bn | bzn | bno | bc | blt | ble => exact complete_reportsNoIllegalOpcode _

/-- `IllegalOpcode` comes from the meaning of an illegal first word and reports `ir`. -/
theorem exec_eq_illegalOpcode {i : Instr} {s t : State} {w : Byte} (h : exec i s = .next t)
    (hw : t.status = some (.halted (.illegalOpcode w))) : (∃ x, i = .illegal x) ∧ w = s.ir := by
  have hi : ∃ x, i = .illegal x := by
    by_contra hne
    exact exec_reportsNoIllegalOpcode (not_exists.mp hne) s t w h hw
  refine ⟨hi, ?_⟩
  obtain ⟨x, rfl⟩ := hi
  have ht : s.stopped (.illegalOpcode s.ir) = t := Host.Outcome.next.inj ((exec_illegal x s).symm.trans h)
  subst ht
  simpa [State.stopped] using hw.symm

/-! ## What the fetch unit hands on -/

/-- A fetch that raises names an address (R203). -/
theorem fetchInstr_raised {s s' : State} {r : HaltReason} (h : fetchInstr s = .raised r s') :
    ∃ x, r = .addressOutOfRange x := by
  obtain ⟨-, hf⟩ | ⟨-, -, hf⟩ | ⟨-, -, -, hf⟩ | ⟨-, -, -, hf⟩ := fetchInstr_cases s
  · cases hf.symm.trans h
    exact ⟨_, rfl⟩
  · cases hf.symm.trans h
  · cases hf.symm.trans h
    exact ⟨_, rfl⟩
  · cases hf.symm.trans h

/-- An instruction that was fetched was decoded from the word at `pc`, which `ir` holds (R71). -/
theorem fetchInstr_instr {s s' : State} {i : Instr} (h : fetchInstr s = .instr i s') :
    s.pc.toNat < s.params.memSize ∧ (∃ d, i = decodeWords s.opcode d) ∧ s'.ir = s.opcode := by
  obtain ⟨-, hf⟩ | ⟨hpc, -, hf⟩ | ⟨-, -, -, hf⟩ | ⟨hpc, -, -, hf⟩ := fetchInstr_cases s
  · cases hf.symm.trans h
  · cases hf.symm.trans h
    exact ⟨hpc, ⟨_, rfl⟩, rfl⟩
  · cases hf.symm.trans h
  · cases hf.symm.trans h
    exact ⟨hpc, ⟨_, rfl⟩, rfl⟩

/-! ## The step -/

theorem step_of_upper_five {s : State} (h : s.canFetchOne) (hop : s.opcode.toNat / 16 = 5) :
    step s = .next (s.afterOne.stopped (.illegalOpcode s.opcode)) :=
  calc step s = exec (decodeWords s.opcode 0) s.afterOne :=
        step_one_word h (needsSecond_eq_false_of_upper_five hop)
    _ = .next (s.afterOne.stopped (.illegalOpcode s.opcode)) := by
        rw [decodeWords_illegal 0 hop, exec_illegal]
        rfl

/-- Only the third case of `step_cases`, an instruction that was fetched, can report `IllegalOpcode`. -/
theorem step_eq_illegalOpcode {s t : State} {w : Byte} (h : step s = .next t)
    (hw : t.status = some (.halted (.illegalOpcode w))) :
    s.canFetchOne ∧ w = s.opcode ∧ w.toNat / 16 = 5 := by
  obtain ⟨-, hstep⟩ | ⟨-, r, s', hf, hstep⟩ | ⟨hrun, i, s', hf, hstep⟩ := step_cases s
  · exact absurd hw (stayHalted_reportsNoIllegalOpcode s t w (hstep.symm.trans h))
  · obtain ⟨x, rfl⟩ := fetchInstr_raised hf
    exact absurd hw (outOfRange_reportsNoIllegalOpcode x s' t w (hstep.symm.trans h))
  · obtain ⟨hpc, ⟨d, hdec⟩, hir⟩ := fetchInstr_instr hf
    obtain ⟨⟨x, hill⟩, hword⟩ := exec_eq_illegalOpcode (hstep.symm.trans h) hw
    have hopcode : w = s.opcode := hword.trans hir
    refine ⟨⟨hrun, hpc⟩, hopcode, ?_⟩
    rw [hopcode]
    exact upper_five_of_decodeWords_eq_illegal (hdec.symm.trans hill)

/-- Settles O57: one clause is the step forwards, the other its inversion. -/
theorem illegalOpcodeStep : Obligations.IllegalOpcodeStep := by
  refine ⟨fun s h hop => ?_, fun s t w => step_eq_illegalOpcode⟩
  exact ⟨_, step_of_upper_five h hop, rfl, rfl⟩

end Sys2Proof.Machine

/-! PROOFS. The decoder and the encoder (R50 to R66): the fields of a first word, what each upper nibble decodes
to, and both directions of the round trip. -/

namespace Sys2Proof.Machine

/-! ## The fields of a first word and the words made of fields (R51) -/

@[simp] theorem fieldOp_wordM (op : BitVec 4) (a : RegSel) (low : BitVec 3) :
    fieldOp (wordM op a low) = op := by
  cases a <;> (revert op low; decide)

@[simp] theorem fieldA_wordM (op : BitVec 4) (a : RegSel) (low : BitVec 3) :
    fieldA (wordM op a low) = a := by
  cases a <;> (revert op low; decide)

@[simp] theorem fieldB_wordM (op : BitVec 4) (a : RegSel) (low : BitVec 3) :
    fieldB (wordM op a low) = low := by
  cases a <;> (revert op low; decide)

theorem wordM_fields (w : Byte) : wordM (fieldOp w) (fieldA w) (fieldB w) = w := by
  revert w; decide

@[simp] theorem fieldOp_wordB (cc : BitVec 4) : fieldOp (wordB cc) = 0x3 := by
  revert cc; decide

@[simp] theorem fieldCc_wordB (cc : BitVec 4) : fieldCc (wordB cc) = cc := by
  revert cc; decide

/-- A word is its upper nibble and the four bits that a branch reads as its condition code. -/
theorem fieldOp_append_fieldCc (w : Byte) : fieldOp w ++ fieldCc w = w := by
  revert w; decide

/-- Every operand B is read from some fields. -/
theorem exists_operandOfFields_eq (b : OperandB) : ∃ x d, operandOfFields x d = b := by
  cases b with
  | acc => exact ⟨0, 0, rfl⟩
  | ix => exact ⟨1, 0, rfl⟩
  | imm isAlias d =>
    cases isAlias
    · exact ⟨2, d, rfl⟩
    · exact ⟨3, d, rfl⟩
  | mem m d =>
    cases m
    · exact ⟨4, d, rfl⟩
    · exact ⟨5, d, rfl⟩
    · exact ⟨6, d, rfl⟩
    · exact ⟨7, d, rfl⟩

/-- The modes 0 and 1 do not use the second word (R55). -/
theorem operandOfFields_register {x : BitVec 3} (hx : ¬ 2 ≤ x) (d d' : Byte) :
    operandOfFields x d = operandOfFields x d' := by
  have hx : x = 0 ∨ x = 1 := by revert x; decide
  obtain rfl | rfl := hx <;> rfl

/-- Operand B asks for a second word in the modes from 2 on (R58). -/
theorem OperandB.second_operandOfFields (x : BitVec 3) (d : Byte) :
    (operandOfFields x d).second = if 2 ≤ x then [d] else [] := by
  have hx : x = 0 ∨ x = 1 ∨ x = 2 ∨ x = 3 ∨ x = 4 ∨ x = 5 ∨ x = 6 ∨ x = 7 := by revert x; decide
  obtain rfl | rfl | rfl | rfl | rfl | rfl | rfl | rfl := hx <;> rfl

/-! ## What each upper nibble decodes to (R52, R53) -/

/-- The rows of the opcode table that read operand B: LD and the eight ALU instructions. -/
def formatMRows : List (BitVec 4 × (RegSel → OperandB → Instr)) :=
  [(0x6, .ld), (0x8, .sbc), (0x9, .adc), (0xA, .sub), (0xB, .add), (0xC, .eor), (0xD, .or), (0xE, .and),
    (0xF, .cmp)]

section
variable {w : Byte} (d : Byte)

/-- Once the upper nibble is not 0, the first word is neither that of JAL nor that of JR. -/
theorem ne_jal_jr_of_fieldOp (h : fieldOp w ≠ 0) : w ≠ 0x0A ∧ w ≠ 0x0B := by
  constructor <;> (rintro rfl; exact h rfl)

theorem decodeWords_out_inp (h : fieldOp w = 0x1) :
    decodeWords w d = if !w.getLsbD 3 then .out (fieldX w) else .inp (fieldX w) := by
  obtain ⟨hJal, hJr⟩ := ne_jal_jr_of_fieldOp (w := w) (by rw [h]; decide)
  simp only [decodeWords, if_neg hJal, if_neg hJr, h]
  rfl

theorem decodeWords_rcf_scf (h : fieldOp w = 0x2) :
    decodeWords w d = if !w.getLsbD 3 then .rcf (fieldX w) else .scf (fieldX w) := by
  obtain ⟨hJal, hJr⟩ := ne_jal_jr_of_fieldOp (w := w) (by rw [h]; decide)
  simp only [decodeWords, if_neg hJal, if_neg hJr, h]
  rfl

theorem decodeWords_branch (h : fieldOp w = 0x3) : decodeWords w d = branchOfCc (fieldCc w) d := by
  obtain ⟨hJal, hJr⟩ := ne_jal_jr_of_fieldOp (w := w) (by rw [h]; decide)
  simp only [decodeWords, if_neg hJal, if_neg hJr, h]
  rfl

theorem decodeWords_shift (h : fieldOp w = 0x4) :
    decodeWords w d = shiftOfFields (fieldB w) (fieldA w) := by
  obtain ⟨hJal, hJr⟩ := ne_jal_jr_of_fieldOp (w := w) (by rw [h]; decide)
  simp only [decodeWords, if_neg hJal, if_neg hJr, h]
  rfl

theorem decodeWords_store (h : fieldOp w = 0x7) : decodeWords w d =
    if w.getLsbD 2 then .st (fieldA w) (fieldB w) d else .stIllegalMode (fieldA w) (fieldB w) d := by
  obtain ⟨hJal, hJr⟩ := ne_jal_jr_of_fieldOp (w := w) (by rw [h]; decide)
  simp only [decodeWords, if_neg hJal, if_neg hJr, h]
  rfl

theorem decodeWords_formatM : ∀ row ∈ formatMRows, fieldOp w = row.1 →
    decodeWords w d = row.2 (fieldA w) (operandOfFields (fieldB w) d) := by
  intro row hrow h
  have hne : row.1 ≠ 0 := (by decide : ∀ row ∈ formatMRows, row.1 ≠ 0) row hrow
  obtain ⟨hJal, hJr⟩ := ne_jal_jr_of_fieldOp (w := w) (by rwa [h])
  simp only [decodeWords, if_neg hJal, if_neg hJr, h]
  simp only [formatMRows, List.mem_cons, List.not_mem_nil, or_false] at hrow
  obtain rfl | rfl | rfl | rfl | rfl | rfl | rfl | rfl | rfl := hrow <;> rfl

end

/-- Every upper nibble is 0, 5 or that of one of the families above. -/
theorem fieldOp_cases (w : Byte) : fieldOp w = 0x0 ∨ fieldOp w = 0x1 ∨ fieldOp w = 0x2 ∨ fieldOp w = 0x3 ∨
    fieldOp w = 0x4 ∨ fieldOp w = 0x5 ∨ fieldOp w = 0x7 ∨ ∃ row ∈ formatMRows, fieldOp w = row.1 := by
  generalize fieldOp w = op
  revert op; decide

/-! ## From the words to the instruction and back (R66) -/

/-- The instruction read from `w` and `d` is well formed and has as its words `w`, and `d` where R58 asks for it. -/
def ReadsBack (w d : Byte) : Prop :=
  (decodeWords w d).wellFormed = true ∧
    encode (decodeWords w d) = if needsSecond w then [w, d] else [w]

section
variable {w : Byte} (d : Byte)

theorem readsBack_of_upper_zero (h : fieldOp w = 0x0) : ReadsBack w d := by
  by_cases hJal : w = 0x0A
  · subst hJal
    exact ⟨rfl, rfl⟩
  by_cases hJr : w = 0x0B
  · subst hJr
    exact ⟨rfl, rfl⟩
  have hle : w.toNat ≤ 0x0F := by
    have hdiv : w.toNat / 16 = 0 := by rw [← fieldOp_toNat, h]; rfl
    omega
  have bits : ∀ w : Byte, fieldOp w = 0x0 →
      (w.getLsbD 3 = false → wordZ 0x0 0 (fieldX w) = w) ∧
      (w.getLsbD 3 = true → w.getLsbD 2 = false → w.getLsbD 1 = false →
        (0b0000100 : BitVec 7) ++ w.extractLsb' 0 1 = w) ∧
      (w.getLsbD 3 = true → w.getLsbD 2 = true → (0b000011 : BitVec 6) ++ w.extractLsb' 0 2 = w) := by
    decide
  have hbit1 : w.getLsbD 3 = true → w.getLsbD 2 = false → w.getLsbD 1 = false := by
    revert w; decide
  obtain ⟨hnop, hhlt, hhigh⟩ := bits w h
  rw [ReadsBack, needsSecond_eq_false_of_upper_zero hle hJal, decodeWords_of_upper_zero d hle hJal hJr]
  cases h3 : w.getLsbD 3
  case false => exact ⟨rfl, congrArg (fun v => [v]) (hnop h3)⟩
  case true =>
    cases h2 : w.getLsbD 2
    case false => exact ⟨rfl, congrArg (fun v => [v]) (hhlt h3 h2 (hbit1 h3 h2))⟩
    case true => exact ⟨rfl, congrArg (fun v => [v]) (hhigh h3 h2)⟩

/-- In the nibbles 1 and 2 bit 3 tells the two instructions apart, and bits 2:0 are kept. -/
theorem wordZ_fields (w : Byte) : wordZ (fieldOp w) (BitVec.ofBool (w.getLsbD 3)) (fieldX w) = w := by
  revert w; decide

theorem needsSecond_eq_false_of_fieldOp (h : fieldOp w = 0x1 ∨ fieldOp w = 0x2 ∨ fieldOp w = 0x4) :
    needsSecond w = false := by
  revert w; decide

theorem readsBack_out_inp (h : fieldOp w = 0x1) : ReadsBack w d := by
  have hw := wordZ_fields w
  rw [h] at hw
  rw [ReadsBack, needsSecond_eq_false_of_fieldOp (.inl h), decodeWords_out_inp d h]
  cases h3 : w.getLsbD 3 <;> rw [h3] at hw <;> exact ⟨rfl, congrArg (fun v => [v]) hw⟩

theorem readsBack_rcf_scf (h : fieldOp w = 0x2) : ReadsBack w d := by
  have hw := wordZ_fields w
  rw [h] at hw
  rw [ReadsBack, needsSecond_eq_false_of_fieldOp (.inr (.inl h)), decodeWords_rcf_scf d h]
  cases h3 : w.getLsbD 3 <;> rw [h3] at hw <;> exact ⟨rfl, congrArg (fun v => [v]) hw⟩

theorem needsSecond_branch (h : fieldOp w = 0x3) : needsSecond w = true := by
  revert w; decide

theorem branchOfCc_encodes (cc : BitVec 4) (t : Byte) :
    (branchOfCc cc t).wellFormed = true ∧ encode (branchOfCc cc t) = [wordB cc, t] := by
  have hcc : ∀ cc : BitVec 4, ∃ k : Fin 16, cc = BitVec.ofFin k := fun cc => ⟨cc.toFin, rfl⟩
  obtain ⟨k, rfl⟩ := hcc cc
  fin_cases k <;> exact ⟨rfl, rfl⟩

theorem readsBack_branch (h : fieldOp w = 0x3) : ReadsBack w d := by
  obtain ⟨hwf, henc⟩ := branchOfCc_encodes (fieldCc w) d
  have hw : wordB (fieldCc w) = w := by
    rw [wordB, ← h, fieldOp_append_fieldCc]
  rw [ReadsBack, needsSecond_branch h, decodeWords_branch d h, henc, hw]
  exact ⟨hwf, rfl⟩

theorem shiftOfFields_encodes (rsm : BitVec 3) (a : RegSel) :
    (shiftOfFields rsm a).wellFormed = true ∧ encode (shiftOfFields rsm a) = [wordM 0x4 a rsm] := by
  cases a <;> (revert rsm; decide)

theorem readsBack_shift (h : fieldOp w = 0x4) : ReadsBack w d := by
  obtain ⟨hwf, henc⟩ := shiftOfFields_encodes (fieldB w) (fieldA w)
  have hw := wordM_fields w
  rw [h] at hw
  rw [ReadsBack, needsSecond_eq_false_of_fieldOp (.inr (.inr h)), decodeWords_shift d h, henc, hw]
  exact ⟨hwf, rfl⟩

theorem readsBack_illegal (h : fieldOp w = 0x5) : ReadsBack w d := by
  have hnum : w.toNat / 16 = 5 := (fieldOp_eq_five_iff w).mp h
  have hw := fieldOp_append_fieldCc w
  rw [h] at hw
  rw [ReadsBack, needsSecond_eq_false_of_upper_five hnum, decodeWords_illegal d hnum]
  exact ⟨rfl, congrArg (fun v => [v]) hw⟩

theorem needsSecond_store (h : fieldOp w = 0x7) : needsSecond w = true := by
  revert w; decide

/-- Bit 2 of a first word is bit 2 of its mode field. -/
theorem fieldB_bit_two (w : Byte) : (fieldB w).getLsbD 2 = w.getLsbD 2 := by
  revert w; decide

theorem readsBack_store (h : fieldOp w = 0x7) : ReadsBack w d := by
  have hw := wordM_fields w
  rw [h] at hw
  have henc : [wordM 0x7 (fieldA w) (fieldB w), d] = [w, d] := by rw [hw]
  rw [ReadsBack, needsSecond_store h, decodeWords_store d h]
  have hbit := fieldB_bit_two w
  cases h2 : w.getLsbD 2 <;> rw [h2] at hbit
  case false => exact ⟨congrArg (!·) hbit, henc⟩
  case true => exact ⟨hbit, henc⟩

theorem formatM_encodes (a : RegSel) (b : OperandB) : ∀ row ∈ formatMRows,
    (row.2 a b).wellFormed = true ∧ encode (row.2 a b) = encodeM row.1 a b := by
  simp only [formatMRows, List.forall_mem_cons]
  exact ⟨⟨rfl, rfl⟩, ⟨rfl, rfl⟩, ⟨rfl, rfl⟩, ⟨rfl, rfl⟩, ⟨rfl, rfl⟩, ⟨rfl, rfl⟩, ⟨rfl, rfl⟩, ⟨rfl, rfl⟩,
    ⟨rfl, rfl⟩, by simp⟩

theorem needsSecond_formatM : ∀ row ∈ formatMRows, fieldOp w = row.1 →
    needsSecond w = decide (2 ≤ fieldB w) := by
  intro row hrow h
  have hop : fieldOp w = 0x6 ∨ 0x8 ≤ fieldOp w := by
    rw [h]
    exact (by decide : ∀ row ∈ formatMRows, row.1 = 0x6 ∨ 0x8 ≤ row.1) row hrow
  revert hop; clear h; revert w; decide

theorem readsBack_formatM : ∀ row ∈ formatMRows, fieldOp w = row.1 → ReadsBack w d := by
  intro row hrow h
  obtain ⟨hwf, henc⟩ := formatM_encodes (fieldA w) (operandOfFields (fieldB w) d) row hrow
  have hw := wordM_fields w
  rw [h] at hw
  rw [ReadsBack, needsSecond_formatM row hrow h, decodeWords_formatM d row hrow h, henc, encodeM,
    operandOfFields_bits, OperandB.second_operandOfFields, hw]
  refine ⟨hwf, ?_⟩
  by_cases hb : 2 ≤ fieldB w
  · rw [if_pos hb, if_pos (decide_eq_true hb)]
  · rw [if_neg hb, if_neg (by simpa using hb)]

end

theorem readsBack (w d : Byte) : ReadsBack w d := by
  obtain h | h | h | h | h | h | h | ⟨row, hrow, h⟩ := fieldOp_cases w
  · exact readsBack_of_upper_zero d h
  · exact readsBack_out_inp d h
  · exact readsBack_rcf_scf d h
  · exact readsBack_branch d h
  · exact readsBack_shift d h
  · exact readsBack_illegal d h
  · exact readsBack_store d h
  · exact readsBack_formatM d row hrow h

/-- Everything the decoder can do with a sequence of bytes. -/
theorem decode_cases (bytes : List Byte) :
    (bytes = [] ∧ decode bytes = .error .noFirstWord) ∨
    (∃ w, bytes = [w] ∧ needsSecond w = true ∧ decode bytes = .error .noSecondWord) ∨
    (∃ w rest, bytes = w :: rest ∧ needsSecond w = false ∧ decode bytes = .ok (decodeWords w 0, rest)) ∨
    (∃ w d rest, bytes = w :: d :: rest ∧ needsSecond w = true ∧
      decode bytes = .ok (decodeWords w d, rest)) := by
  cases bytes with
  | nil => exact .inl ⟨rfl, rfl⟩
  | cons w rest =>
    cases hn : needsSecond w
    case false => exact .inr (.inr (.inl ⟨w, rest, rfl, hn, decode_one_word rest hn⟩))
    case true =>
      cases rest with
      | nil => exact .inr (.inl ⟨w, rfl, hn, if_pos hn⟩)
      | cons d rest => exact .inr (.inr (.inr ⟨w, d, rest, rfl, hn, decode_two_words d rest hn⟩))

/-- Settles O2: the words read are the words encoded, by the upper nibble. -/
theorem encodeOfDecodeIsTheWords : Obligations.EncodeOfDecodeIsTheWords := by
  intro bytes rest i h
  obtain ⟨-, hd⟩ | ⟨w, -, -, hd⟩ | ⟨w, rest', rfl, hn, hd⟩ | ⟨w, d, rest', rfl, hn, hd⟩ := decode_cases bytes
  · cases hd.symm.trans h
  · cases hd.symm.trans h
  · cases hd.symm.trans h
    obtain ⟨hwf, henc⟩ := readsBack w 0
    exact ⟨hwf, by rw [henc, hn]; rfl⟩
  · cases hd.symm.trans h
    obtain ⟨hwf, henc⟩ := readsBack w d
    exact ⟨hwf, by rw [henc, hn]; rfl⟩

/-- Settles O3: of the four cases of the decoder two are errors, each with its own bytes. -/
theorem decoderRefusesOnlyMissingWords : Obligations.DecoderRefusesOnlyMissingWords := by
  intro bytes e
  obtain ⟨rfl, hd⟩ | ⟨w, rfl, hn, hd⟩ | ⟨w, rest, rfl, hn, hd⟩ | ⟨w, d, rest, rfl, hn, hd⟩ :=
    decode_cases bytes <;> rw [hd]
  · cases e <;> simp
  · cases e <;> simp [hn]
  · simp only [reduceCtorEq, false_iff, List.cons_ne_nil, false_and, false_or]
    rintro ⟨w', hw, hn', -⟩
    cases hw
    simp [hn'] at hn
  · simp

/-! ## From the instruction to the words and back (R66) -/

section
variable (rest : List Byte)

theorem decode_eq_of_decodeWords {w : Byte} {i : Instr} (hn : needsSecond w = false)
    (hi : decodeWords w 0 = i) : decode ([w] ++ rest) = .ok (i, rest) := by
  rw [← hi]
  exact decode_one_word rest hn

theorem decode_wordB (cc : BitVec 4) (t : Byte) :
    decode ([wordB cc, t] ++ rest) = .ok (branchOfCc cc t, rest) := by
  have hop : fieldOp (wordB cc) = 0x3 := fieldOp_wordB cc
  have hw : decodeWords (wordB cc) t = branchOfCc cc t := by
    rw [decodeWords_branch t hop, fieldCc_wordB]
  rw [← hw]
  exact decode_two_words t rest (needsSecond_branch hop)

theorem decode_wordM_shift (a : RegSel) (rsm : BitVec 3) :
    decode ([wordM 0x4 a rsm] ++ rest) = .ok (shiftOfFields rsm a, rest) := by
  have hop : fieldOp (wordM 0x4 a rsm) = 0x4 := fieldOp_wordM _ a rsm
  refine decode_eq_of_decodeWords rest (needsSecond_eq_false_of_fieldOp (.inr (.inr hop))) ?_
  rw [decodeWords_shift 0 hop, fieldB_wordM, fieldA_wordM]

theorem decode_wordM_store (a : RegSel) (b : BitVec 3) (d : Byte) :
    decode ([wordM 0x7 a b, d] ++ rest) =
      .ok (if b.getLsbD 2 then .st a b d else .stIllegalMode a b d, rest) := by
  have hop : fieldOp (wordM 0x7 a b) = 0x7 := fieldOp_wordM _ a b
  have hw := decodeWords_store d hop
  rw [fieldA_wordM, ← fieldB_bit_two, fieldB_wordM] at hw
  rw [← hw]
  exact decode_two_words d rest (needsSecond_store hop)

theorem decode_formatM (a : RegSel) (b : OperandB) : ∀ row ∈ formatMRows,
    decode (encodeM row.1 a b ++ rest) = .ok (row.2 a b, rest) := by
  intro row hrow
  obtain ⟨x, d, rfl⟩ := exists_operandOfFields_eq b
  have hop : fieldOp (wordM row.1 a x) = row.1 := fieldOp_wordM _ a x
  have hn := needsSecond_formatM row hrow hop
  have hw := fun d => decodeWords_formatM d row hrow hop
  simp only [fieldA_wordM, fieldB_wordM] at hn hw
  rw [encodeM, operandOfFields_bits, OperandB.second_operandOfFields]
  by_cases hx : 2 ≤ x
  · rw [if_pos hx, ← hw]
    exact decode_two_words d rest (hn.trans (decide_eq_true hx))
  · rw [if_neg hx, operandOfFields_register hx d 0, ← hw]
    exact decode_one_word rest (hn.trans (decide_eq_false hx))

end

/-- Settles O1, by the row of the opcode table. -/
theorem decodeOfEncodeIsTheInstruction : Obligations.DecodeOfEncodeIsTheInstruction := by
  intro i rest hwf
  have rows := fun a b => decode_formatM rest a b
  simp only [formatMRows, List.forall_mem_cons] at rows
  cases i with
  | nop x => exact decode_eq_of_decodeWords rest (by revert x; decide) (by revert x; decide)
  | hlt x => exact decode_eq_of_decodeWords rest (by revert x; decide) (by revert x; decide)
  | hltHigh x => exact decode_eq_of_decodeWords rest (by revert x; decide) (by revert x; decide)
  | jal t => rfl
  | jr => rfl
  | out x => exact decode_eq_of_decodeWords rest (by revert x; decide) (by revert x; decide)
  | inp x => exact decode_eq_of_decodeWords rest (by revert x; decide) (by revert x; decide)
  | rcf x => exact decode_eq_of_decodeWords rest (by revert x; decide) (by revert x; decide)
  | scf x => exact decode_eq_of_decodeWords rest (by revert x; decide) (by revert x; decide)
  | ba t => exact decode_wordB rest 0x0 t
  | bnz t => exact decode_wordB rest 0x1 t
  | bzp t => exact decode_wordB rest 0x2 t
  | bp t => exact decode_wordB rest 0x3 t
  | bni t => exact decode_wordB rest 0x4 t
  | bnc t => exact decode_wordB rest 0x5 t
  | bge t => exact decode_wordB rest 0x6 t
  | bgt t => exact decode_wordB rest 0x7 t
  | bvf t => exact decode_wordB rest 0x8 t
  | bz t => exact decode_wordB rest 0x9 t
  | bn t => exact decode_wordB rest 0xA t
  | bzn t => exact decode_wordB rest 0xB t
  | bno t => exact decode_wordB rest 0xC t
  | bc t => exact decode_wordB rest 0xD t
  | blt t => exact decode_wordB rest 0xE t
  | ble t => exact decode_wordB rest 0xF t
  | sra a => exact decode_wordM_shift rest a 0
  | sla a => exact decode_wordM_shift rest a 1
  | srl a => exact decode_wordM_shift rest a 2
  | sll a => exact decode_wordM_shift rest a 3
  | rra a => exact decode_wordM_shift rest a 4
  | rla a => exact decode_wordM_shift rest a 5
  | rrl a => exact decode_wordM_shift rest a 6
  | rll a => exact decode_wordM_shift rest a 7
  | illegal x => exact decode_eq_of_decodeWords rest (by revert x; decide) (by revert x; decide)
  | st a b d =>
    have hb : b.getLsbD 2 = true := hwf
    exact (decode_wordM_store rest a b d).trans (by rw [hb]; rfl)
  | stIllegalMode a b d =>
    have hb : b.getLsbD 2 = false := Bool.not_eq_true' _ |>.mp hwf
    exact (decode_wordM_store rest a b d).trans (by rw [hb]; rfl)
  | ld a b => exact (rows a b).1
  | sbc a b | adc a b | sub a b | add a b | eor a b | or a b | and a b | cmp a b =>
    obtain ⟨-, hsbc, hadc, hsub, hadd, heor, hor, hand, hcmp, -⟩ := rows a b
    assumption

/-! ## The opcode map by the number of the first word (R53) -/

/-- Settles O6: the decoder run on each of the seven. -/
theorem sampleWordsDecode : Obligations.SampleWordsDecode :=
  ⟨rfl, rfl, rfl, rfl, rfl, rfl, rfl⟩

section
variable {w : Byte} (d : Byte)

theorem fieldOp_eq_of_toNat {op : BitVec 4} (h : w.toNat / 16 = op.toNat) : fieldOp w = op :=
  BitVec.eq_of_toNat_eq ((fieldOp_toNat w).trans h)

theorem fieldX_eq_ofNat (w : Byte) : fieldX w = BitVec.ofNat 3 w.toNat := by
  revert w; decide

theorem fieldB_eq_ofNat (w : Byte) : fieldB w = BitVec.ofNat 3 w.toNat := fieldX_eq_ofNat w

theorem fieldCc_eq_ofNat (w : Byte) : fieldCc w = BitVec.ofNat 4 w.toNat := by
  revert w; decide

theorem fieldA_eq_ite (w : Byte) : fieldA w = if w.toNat / 8 % 2 = 1 then .ix else .acc := by
  revert w; decide

/-- The bit that tells the two instructions of the nibbles 0, 1 and 2 apart (R53). -/
theorem bit_three_eq (w : Byte) : w.getLsbD 3 = decide (8 ≤ w.toNat % 16) := by
  revert w; decide

theorem decodeWords_nop_of_toNat (h : w.toNat ≤ 0x07) :
    decodeWords w d = .nop (BitVec.ofNat 3 w.toNat) := by
  rw [decodeWords_nop d h, fieldX_eq_ofNat]

theorem decodeWords_jal_of_toNat (h : w.toNat = 0x0A) : decodeWords w d = .jal d := by
  obtain rfl : w = 0x0A := BitVec.eq_of_toNat_eq h
  rfl

theorem decodeWords_jr_of_toNat (h : w.toNat = 0x0B) : decodeWords w d = .jr := by
  obtain rfl : w = 0x0B := BitVec.eq_of_toNat_eq h
  rfl

theorem decodeWords_hlt_of_toNat (h : w.toNat = 0x08 ∨ w.toNat = 0x09) :
    decodeWords w d = .hlt (BitVec.ofNat 1 w.toNat) := by
  have hw : w = 0x08 ∨ w = 0x09 := h.imp BitVec.eq_of_toNat_eq BitVec.eq_of_toNat_eq
  obtain rfl | rfl := hw <;> rfl

theorem decodeWords_hltHigh_of_toNat (h : 0x0C ≤ w.toNat ∧ w.toNat ≤ 0x0F) :
    decodeWords w d = .hltHigh (BitVec.ofNat 2 w.toNat) := by
  have hw : w = 0x0C ∨ w = 0x0D ∨ w = 0x0E ∨ w = 0x0F := by
    revert w; decide
  obtain rfl | rfl | rfl | rfl := hw <;> rfl

theorem decodeWords_out_of_toNat (h : 0x10 ≤ w.toNat ∧ w.toNat ≤ 0x17) :
    decodeWords w d = .out (BitVec.ofNat 3 w.toNat) := by
  rw [decodeWords_out_inp d (fieldOp_eq_of_toNat (by simp; omega)), bit_three_eq, fieldX_eq_ofNat,
    decide_eq_false (by omega)]
  rfl

theorem decodeWords_inp_of_toNat (h : 0x18 ≤ w.toNat ∧ w.toNat ≤ 0x1F) :
    decodeWords w d = .inp (BitVec.ofNat 3 w.toNat) := by
  rw [decodeWords_out_inp d (fieldOp_eq_of_toNat (by simp; omega)), bit_three_eq, fieldX_eq_ofNat,
    decide_eq_true (by omega)]
  rfl

theorem decodeWords_rcf_of_toNat (h : 0x20 ≤ w.toNat ∧ w.toNat ≤ 0x27) :
    decodeWords w d = .rcf (BitVec.ofNat 3 w.toNat) := by
  rw [decodeWords_rcf_scf d (fieldOp_eq_of_toNat (by simp; omega)), bit_three_eq, fieldX_eq_ofNat,
    decide_eq_false (by omega)]
  rfl

theorem decodeWords_scf_of_toNat (h : 0x28 ≤ w.toNat ∧ w.toNat ≤ 0x2F) :
    decodeWords w d = .scf (BitVec.ofNat 3 w.toNat) := by
  rw [decodeWords_rcf_scf d (fieldOp_eq_of_toNat (by simp; omega)), bit_three_eq, fieldX_eq_ofNat,
    decide_eq_true (by omega)]
  rfl

theorem decodeWords_branch_of_toNat (cc : BitVec 4) (h : w.toNat = 0x30 + cc.toNat) :
    decodeWords w d = branchOfCc cc d := by
  have hcc : fieldCc w = cc := by
    rw [fieldCc_eq_ofNat, h]
    apply BitVec.eq_of_toNat_eq
    have := cc.isLt
    simp only [BitVec.toNat_ofNat]
    omega
  have hlt := cc.isLt
  rw [decodeWords_branch d (fieldOp_eq_of_toNat (by simp; omega)), hcc]

theorem decodeWords_shift_of_toNat (rsm : BitVec 3)
    (h : w.toNat = 0x40 + rsm.toNat ∨ w.toNat = 0x48 + rsm.toNat) :
    decodeWords w d = shiftOfFields rsm (if w.toNat / 8 % 2 = 1 then .ix else .acc) := by
  have hlt := rsm.isLt
  have hrsm : fieldB w = rsm := by
    apply BitVec.eq_of_toNat_eq
    rw [fieldB_toNat]
    omega
  rw [decodeWords_shift d (fieldOp_eq_of_toNat (by simp; omega)), hrsm, fieldA_eq_ite]

theorem decodeWords_illegal_of_toNat (h : 0x50 ≤ w.toNat ∧ w.toNat ≤ 0x5F) :
    decodeWords w d = .illegal (BitVec.ofNat 4 w.toNat) := by
  rw [decodeWords_illegal d (by omega), fieldCc_eq_ofNat]

theorem bit_two_eq (w : Byte) : w.getLsbD 2 = decide (4 ≤ w.toNat % 8) := by
  revert w; decide

theorem decodeWords_st_of_toNat (h : 0x70 ≤ w.toNat ∧ w.toNat ≤ 0x7F ∧ 4 ≤ w.toNat % 8) :
    decodeWords w d =
      .st (if w.toNat / 8 % 2 = 1 then .ix else .acc) (BitVec.ofNat 3 w.toNat) d := by
  rw [decodeWords_store d (fieldOp_eq_of_toNat (by simp; omega)), bit_two_eq, fieldA_eq_ite, fieldB_eq_ofNat,
    decide_eq_true h.2.2]
  rfl

theorem decodeWords_stIllegalMode_of_toNat (h : 0x70 ≤ w.toNat ∧ w.toNat ≤ 0x7F ∧ w.toNat % 8 < 4) :
    decodeWords w d =
      .stIllegalMode (if w.toNat / 8 % 2 = 1 then .ix else .acc) (BitVec.ofNat 3 w.toNat) d := by
  rw [decodeWords_store d (fieldOp_eq_of_toNat (by simp; omega)), bit_two_eq, fieldA_eq_ite, fieldB_eq_ofNat,
    decide_eq_false (by omega)]
  rfl

theorem decodeWords_formatM_of_toNat : ∀ row ∈ formatMRows, w.toNat / 16 = row.1.toNat →
    decodeWords w d =
      row.2 (if w.toNat / 8 % 2 = 1 then .ix else .acc) (operandOfFields (fieldB w) d) := by
  intro row hrow h
  rw [decodeWords_formatM d row hrow (fieldOp_eq_of_toNat h), fieldA_eq_ite]

end

/-- Settles O5, row by row, each from the number of the first word. -/
theorem opcodeMapOfAllFirstWords : Obligations.OpcodeMapOfAllFirstWords := by
  intro w d i n a b
  have hlt : n < 256 := w.isLt
  have hb : operandOfFields (fieldB w) d = b := by
    have hmod : n % 8 = 0 ∨ n % 8 = 1 ∨ n % 8 = 2 ∨ n % 8 = 3 ∨ n % 8 = 4 ∨ n % 8 = 5 ∨ n % 8 = 6 ∨
      n % 8 = 7 := by omega
    have hfield : fieldB w = BitVec.ofNat 3 (n % 8) :=
      BitVec.eq_of_toNat_eq ((fieldB_toNat w).trans (by simp [n]))
    obtain h | h | h | h | h | h | h | h := hmod <;> simp only [b, hfield, h] <;> rfl
  have rows := fun row hrow => decodeWords_formatM_of_toNat (w := w) d row hrow
  rw [hb] at rows
  simp only [formatMRows, List.forall_mem_cons] at rows
  obtain ⟨ld, sbc, adc, sub, add, eor, or, and, cmp, -⟩ := rows
  have branch := fun cc => decodeWords_branch_of_toNat (w := w) d cc
  have shift := fun rsm => decodeWords_shift_of_toNat (w := w) d rsm
  exact ⟨decodeWords_nop_of_toNat d, decodeWords_hlt_of_toNat d, decodeWords_jal_of_toNat d,
    decodeWords_jr_of_toNat d, decodeWords_hltHigh_of_toNat d, decodeWords_out_of_toNat d,
    decodeWords_inp_of_toNat d, decodeWords_rcf_of_toNat d, decodeWords_scf_of_toNat d,
    branch 0x0, branch 0x1, branch 0x2, branch 0x3, branch 0x4, branch 0x5, branch 0x6, branch 0x7,
    branch 0x8, branch 0x9, branch 0xA, branch 0xB, branch 0xC, branch 0xD, branch 0xE, branch 0xF,
    shift 0, shift 1, shift 2, shift 3, shift 4, shift 5, shift 6, shift 7,
    decodeWords_illegal_of_toNat d, fun h => ld (by simp; omega),
    decodeWords_st_of_toNat d, decodeWords_stIllegalMode_of_toNat d,
    fun h => sbc (by simp; omega), fun h => adc (by simp; omega), fun h => sub (by simp; omega),
    fun h => add (by simp; omega), fun h => eor (by simp; omega), fun h => or (by simp; omega),
    fun h => and (by simp; omega), fun h => cmp (by simp; omega)⟩

end Sys2Proof.Machine

/-! PROOFS. Everything an instruction can do, said once, and the frames over all instructions that follow from
it (the tables of R10 and R15; R11 to R13, R17, R18, R33). -/

namespace Sys2Proof.Machine

/-! ## The ends of a meaning -/

/-- What `i` leaves where it completes on `s`: the state `s'`, but for the status. -/
def CompletesWith (i : Instr) (s s' : State) : Prop :=
  match i with
  | .nop _ => s' = s
  | .jal t => s' = (s.setAcc (s.pc.setWidth 8)).setPc (zext16 t)
  | .jr => s' = s.setPc (zext16 s.acc)
  | .out _ => s' = s.setObuf { buf := s.acc, flag := true }
  | .inp _ => s' = (s.setAcc s.ibuf.buf).setIbuf { buf := s.ibuf.buf, flag := false }
  | .rcf _ => s' = s.setFlags { s.flags with cf := false }
  | .scf _ => s' = s.setFlags { s.flags with cf := true }
  | .ba t | .bnz t | .bzp t | .bp t | .bni t | .bnc t | .bge t | .bgt t
  | .bvf t | .bz t | .bn t | .bzn t | .bno t | .bc t | .blt t | .ble t =>
    s' = s.setPc (zext16 t) ∨ s' = s
  | .sla a | .rla a => ∃ v f, s' = writeA a v (s.setFlags f)
  | .sra a | .srl a | .sll a | .rra a | .rrl a | .rll a =>
    ∃ v f, f.vf = false ∧ s' = writeA a v (s.setFlags f)
  | .ld a _ => ∃ v, s' = writeA a v s
  | .st a b d | .stIllegalMode a b d => ∃ m, modeOfField b = .mem m ∧
      effectiveAddress m d s < s.params.memSize ∧
      s' = s.setMem (s.mem.write (effectiveAddress m d s) (readA a s))
  | .add a _ | .adc a _ | .sub a _ | .sbc a _ => ∃ v f, s' = writeA a v (s.setFlags f)
  | .and a _ | .or a _ | .eor a _ =>
    ∃ v f, f.cf = s.flags.cf ∧ f.vf = false ∧ s' = writeA a v (s.setFlags f)
  | .cmp _ _ => ∃ f, s' = s.setFlags f
  | .hlt _ | .hltHigh _ | .illegal _ => False

/-- The reasons with which `i` can halt on `s`; it changes nothing but `run` and the status then. -/
def HaltsWith (i : Instr) (s : State) (r : HaltReason) : Prop :=
  match i with
  | .hlt _ | .hltHigh _ => r = .hlt
  | .illegal _ => r = .illegalOpcode s.ir
  | .st _ b d | .stIllegalMode _ b d =>
    (∃ m, modeOfField b = .mem m ∧ s.params.memSize ≤ effectiveAddress m d s ∧
      r = .addressOutOfRange (effectiveAddress m d s)) ∨
    (b.getLsbD 2 = false ∧ r = .illegalStoreMode s.ir)
  | .ld _ b | .add _ b | .adc _ b | .sub _ b | .sbc _ b | .and _ b | .or _ b | .eor _ b | .cmp _ b =>
    ∃ m d, b = .mem m d ∧ s.params.memSize ≤ effectiveAddress m d s ∧
      r = .addressOutOfRange (effectiveAddress m d s)
  | _ => False

/-- The outcome `r` is one of the two ends that `i` can have on `s`. -/
def EndsAs (i : Instr) (s : State) (r : Result) : Prop :=
  (∃ s', CompletesWith i s s' ∧ r = complete s') ∨ (∃ e, HaltsWith i s e ∧ r = enterHalt e s)

theorem endsAs_of_withB {i : Instr} {s : State} {b : OperandB} {done : Byte → State}
    (hdone : ∀ v, CompletesWith i s (done v))
    (hhalt : ∀ m d, b = .mem m d → s.params.memSize ≤ effectiveAddress m d s →
      HaltsWith i s (.addressOutOfRange (effectiveAddress m d s))) :
    EndsAs i s (withB b s fun v => complete (done v)) := by
  obtain ⟨v, -, h⟩ | ⟨m, d, hb, hx, h⟩ := withB_cases b s fun v => complete (done v)
  · exact .inl ⟨done v, hdone v, h⟩
  · exact .inr ⟨_, hhalt m d hb hx, h⟩

theorem endsAs_of_branch {i : Instr} {cc : Fin 16} {t : Byte} {s : State}
    (htaken : CompletesWith i s (s.setPc (zext16 t))) (hfall : CompletesWith i s s) :
    EndsAs i s (branch cc t s) := by
  obtain ⟨-, h⟩ | ⟨-, h⟩ := branch_cases cc t s
  · exact .inl ⟨_, htaken, h⟩
  · exact .inl ⟨_, hfall, h⟩

theorem endsAs_of_storeThrough {i : Instr} {a : RegSel} {b : BitVec 3} {d : Byte} {s : State}
    (hdone : ∀ m, modeOfField b = .mem m → effectiveAddress m d s < s.params.memSize →
      CompletesWith i s (s.setMem (s.mem.write (effectiveAddress m d s) (readA a s))))
    (hrange : ∀ m, modeOfField b = .mem m → s.params.memSize ≤ effectiveAddress m d s →
      HaltsWith i s (.addressOutOfRange (effectiveAddress m d s)))
    (hmode : b.getLsbD 2 = false → HaltsWith i s (.illegalStoreMode s.ir)) :
    EndsAs i s (storeThrough a b d s) := by
  obtain ⟨m, hm, hx, h⟩ | ⟨m, hm, hx, h⟩ | ⟨hb, h⟩ := storeThrough_cases a b d s
  · exact .inl ⟨_, hdone m hm hx, h⟩
  · exact .inr ⟨_, hrange m hm hx, h⟩
  · exact .inr ⟨_, hmode hb, h⟩

/-- Everything an instruction can do. -/
theorem exec_endsAs (i : Instr) (s : State) : EndsAs i s (exec i s) := by
  cases i with
  | nop | jal | jr | out | inp | rcf | scf => exact .inl ⟨_, rfl, rfl⟩
  | hlt | hltHigh | illegal => exact .inr ⟨_, rfl, rfl⟩
  | ba | bnz | bzp | bp | bni | bnc | bge | bgt
  | bvf | bz | bn | bzn | bno | bc | blt | ble => exact endsAs_of_branch (.inl rfl) (.inr rfl)
  | sla | rla => exact .inl ⟨_, ⟨_, _, rfl⟩, shiftA_eq ..⟩
  | sra | srl | sll | rra | rrl | rll => exact .inl ⟨_, ⟨_, _, rfl, rfl⟩, shiftA_eq ..⟩
  | ld => exact endsAs_of_withB (fun _ => ⟨_, rfl⟩) fun m d hb hx => ⟨m, d, hb, hx, rfl⟩
  | st | stIllegalMode =>
    exact endsAs_of_storeThrough (fun m hm hx => ⟨m, hm, hx, rfl⟩)
      (fun m hm hx => .inl ⟨m, hm, hx, rfl⟩) (fun hb => .inr ⟨hb, rfl⟩)
  | add | adc | sub | sbc =>
    exact endsAs_of_withB (fun _ => ⟨_, _, rfl⟩) fun m d hb hx => ⟨m, d, hb, hx, rfl⟩
  | and | or | eor =>
    exact endsAs_of_withB (fun _ => ⟨_, logicOut _ _ |>.flags, rfl, rfl, rfl⟩) fun m d hb hx => ⟨m, d, hb, hx, rfl⟩
  | cmp => exact endsAs_of_withB (fun _ => ⟨_, rfl⟩) fun m d hb hx => ⟨m, d, hb, hx, rfl⟩

/-- The same, on the next state. -/
theorem exec_next_cases {i : Instr} {s t : State} (h : exec i s = .next t) :
    (∃ s', CompletesWith i s s' ∧ t = s'.setStatus (some .continue)) ∨
    (∃ r, HaltsWith i s r ∧ t = (s.setRun .halted).setStatus (some (.halted r))) := by
  obtain ⟨s', hs', he⟩ | ⟨r, hr, he⟩ := exec_endsAs i s
  · exact .inl ⟨s', hs', complete_eq_next.mp (he.symm.trans h)⟩
  · exact .inr ⟨r, hr, enterHalt_eq_next.mp (he.symm.trans h)⟩

/-- Every meaning answers a next state. -/
theorem exec_next (i : Instr) (s : State) : ∃ t, exec i s = .next t := by
  obtain ⟨s', -, he⟩ | ⟨r, -, he⟩ := exec_endsAs i s
  · exact ⟨_, he⟩
  · exact ⟨_, he⟩

/-! ## The frames -/

section
variable {i : Instr} {s s' : State}

/-- No completing meaning touches these four fields. -/
theorem CompletesWith.frame (h : CompletesWith i s s') :
    s'.mar = s.mar ∧ s'.ir = s.ir ∧ s'.params = s.params ∧ s'.run = s.run := by
  cases i with
  | hlt | hltHigh | illegal => exact h.elim
  | nop | jal | jr | out | inp | rcf | scf => obtain rfl := h; simp
  | ba | bnz | bzp | bp | bni | bnc | bge | bgt
  | bvf | bz | bn | bzn | bno | bc | blt | ble => obtain rfl | rfl := h <;> simp
  | sla | rla | add | adc | sub | sbc => obtain ⟨v, f, rfl⟩ := h; simp
  | sra | srl | sll | rra | rrl | rll => obtain ⟨v, f, -, rfl⟩ := h; simp
  | and | or | eor => obtain ⟨v, f, -, -, rfl⟩ := h; simp
  | ld | cmp => obtain ⟨v, rfl⟩ := h; simp
  | st | stIllegalMode => obtain ⟨m, -, -, rfl⟩ := h; simp

/-- A completing meaning leaves memory, or is a store in a memory mode and writes one byte at an address that
exists (R33). -/
theorem CompletesWith.mem (h : CompletesWith i s s') :
    s'.mem = s.mem ∨
    (∃ a b d x v, (i = .st a b d ∨ i = .stIllegalMode a b d) ∧ b.getLsbD 2 = true ∧
      x < s.params.memSize ∧ s'.mem = s.mem.write x v) := by
  cases i with
  | hlt | hltHigh | illegal => exact h.elim
  | nop | jal | jr | out | inp | rcf | scf => obtain rfl := h; simp
  | ba | bnz | bzp | bp | bni | bnc | bge | bgt
  | bvf | bz | bn | bzn | bno | bc | blt | ble => obtain rfl | rfl := h <;> simp
  | sla | rla | add | adc | sub | sbc => obtain ⟨v, f, rfl⟩ := h; simp
  | sra | srl | sll | rra | rrl | rll => obtain ⟨v, f, -, rfl⟩ := h; simp
  | and | or | eor => obtain ⟨v, f, -, -, rfl⟩ := h; simp
  | ld | cmp => obtain ⟨v, rfl⟩ := h; simp
  | st a b d =>
    obtain ⟨m, hm, hx, rfl⟩ := h
    exact .inr ⟨a, b, d, _, _, .inl rfl, (modeOfField_mem_iff b).mp ⟨m, hm⟩, hx, rfl⟩
  | stIllegalMode a b d =>
    obtain ⟨m, hm, hx, rfl⟩ := h
    exact .inr ⟨a, b, d, _, _, .inr rfl, (modeOfField_mem_iff b).mp ⟨m, hm⟩, hx, rfl⟩

/-- OUT alone writes the output latch and IN alone the input latch (R17, R18). -/
theorem CompletesWith.latches (h : CompletesWith i s s') :
    (s'.obuf = s.obuf ∨ (∃ x, i = .out x) ∧ s'.obuf.flag = true) ∧
    (s'.ibuf = s.ibuf ∨ (∃ x, i = .inp x) ∧ s'.ibuf = { s.ibuf with flag := false }) := by
  cases i with
  | hlt | hltHigh | illegal => exact h.elim
  | nop | jal | jr | rcf | scf => obtain rfl := h; simp
  | out x => obtain rfl := h; exact ⟨.inr ⟨⟨x, rfl⟩, rfl⟩, .inl rfl⟩
  | inp x => obtain rfl := h; exact ⟨.inl rfl, .inr ⟨⟨x, rfl⟩, rfl⟩⟩
  | ba | bnz | bzp | bp | bni | bnc | bge | bgt
  | bvf | bz | bn | bzn | bno | bc | blt | ble => obtain rfl | rfl := h <;> simp
  | sla | rla | add | adc | sub | sbc => obtain ⟨v, f, rfl⟩ := h; simp
  | sra | srl | sll | rra | rrl | rll => obtain ⟨v, f, -, rfl⟩ := h; simp
  | and | or | eor => obtain ⟨v, f, -, -, rfl⟩ := h; simp
  | ld | cmp => obtain ⟨v, rfl⟩ := h; simp
  | st | stIllegalMode => obtain ⟨m, -, -, rfl⟩ := h; simp

end

/-- Settles O21: an instruction that halts changes none of the three, one that completes neither. -/
theorem noInstructionWritesMarIrOrParams : Obligations.NoInstructionWritesMarIrOrParams := by
  intro i s t h
  obtain ⟨s', hs', rfl⟩ | ⟨r, -, rfl⟩ := exec_next_cases h
  · obtain ⟨hmar, hir, hparams, -⟩ := hs'.frame
    exact ⟨hmar, hir, hparams⟩
  · exact ⟨rfl, rfl, rfl⟩

/-- Settles O22: a well-formed store in another mode than the memory modes does not complete. -/
theorem onlyStoresWriteMemory : Obligations.OnlyStoresWriteMemory := by
  intro i s t hwf hne h x
  obtain ⟨s', hs', rfl⟩ | ⟨r, -, rfl⟩ := exec_next_cases h
  · obtain hmem | ⟨a, b, d, y, v, rfl | rfl, hb, -, -⟩ := hs'.mem
    · exact congrArg (Memory.read · x) hmem
    · exact absurd rfl (hne a b d)
    · simp only [Instr.wellFormed, hb] at hwf
      cases hwf
  · rfl

/-- Settles O23: the rows of the table, for an instruction that completes and for one that halts. -/
theorem flagsChangeOnlyByTheTable : Obligations.FlagsChangeOnlyByTheTable := by
  intro i s t h
  obtain ⟨s', hs', rfl⟩ | ⟨r, hr, rfl⟩ := exec_next_cases h
  · refine ⟨fun hne => absurd rfl hne, ?_⟩
    cases i with
    | hlt | hltHigh | illegal => exact hs'.elim
    | add | adc | sub | sbc | cmp | sla | rla => trivial
    | and | or | eor =>
      obtain ⟨v, f, hcf, hvf, rfl⟩ := hs'
      exact ⟨by simpa using hcf, fun _ => by simpa using hvf⟩
    | sra | srl | sll | rra | rrl | rll =>
      obtain ⟨v, f, hvf, rfl⟩ := hs'
      simpa using hvf
    | nop | jal | jr | out | inp | rcf | scf => obtain rfl := hs'; rfl
    | ba | bnz | bzp | bp | bni | bnc | bge | bgt
    | bvf | bz | bn | bzn | bno | bc | blt | ble => obtain rfl | rfl := hs' <;> rfl
    | ld => obtain ⟨v, rfl⟩ := hs'; simp
    | st | stIllegalMode => obtain ⟨m, -, -, rfl⟩ := hs'; rfl
  · refine ⟨fun _ => rfl, ?_⟩
    cases i with
    | add | adc | sub | sbc | cmp | sla | rla => trivial
    | and | or | eor => exact ⟨rfl, fun hcont => by cases hcont⟩
    | hlt | hltHigh | illegal | ld | st | stIllegalMode => rfl
    | sra | srl | sll | rra | rrl | rll | nop | jal | jr | out | inp | rcf | scf
    | ba | bnz | bzp | bp | bni | bnc | bge | bgt
    | bvf | bz | bn | bzn | bno | bc | blt | ble => exact hr.elim

/-- Settles O24: a completing instruction writes no general register but by `writeA`, JAL and IN apart. -/
theorem registersChangeOnlyByTheTable : Obligations.RegistersChangeOnlyByTheTable := by
  intro i s t h
  obtain ⟨s', hs', rfl⟩ | ⟨r, hr, rfl⟩ := exec_next_cases h
  · cases i with
    | hlt | hltHigh | illegal => exact hs'.elim
    | add a | adc a | sub a | sbc a | sla a | rla a =>
      obtain ⟨v, f, rfl⟩ := hs'
      cases a <;> rfl
    | and a | or a | eor a =>
      obtain ⟨v, f, -, -, rfl⟩ := hs'
      cases a <;> rfl
    | sra a | srl a | sll a | rra a | rrl a | rll a =>
      obtain ⟨v, f, -, rfl⟩ := hs'
      cases a <;> rfl
    | ld a => obtain ⟨v, rfl⟩ := hs'; cases a <;> rfl
    | cmp => obtain ⟨f, rfl⟩ := hs'; exact ⟨rfl, rfl⟩
    | jal | inp => obtain rfl := hs'; rfl
    | nop | jr | out | rcf | scf => obtain rfl := hs'; exact ⟨rfl, rfl⟩
    | ba | bnz | bzp | bp | bni | bnc | bge | bgt
    | bvf | bz | bn | bzn | bno | bc | blt | ble => obtain rfl | rfl := hs' <;> exact ⟨rfl, rfl⟩
    | st | stIllegalMode => obtain ⟨m, -, -, rfl⟩ := hs'; exact ⟨rfl, rfl⟩
  · split <;> simp

theorem zext16_toNat (v : Byte) : (zext16 v).toNat = v.toNat :=
  BitVec.toNat_setWidth_of_le (by decide)

/-- Settles O26: `pc` is written by JAL, JR and the taken branches only. -/
theorem pcChangesOnlyByControlTransfers : Obligations.PcChangesOnlyByControlTransfers := by
  intro i s t h
  obtain ⟨s', hs', rfl⟩ | ⟨r, hr, rfl⟩ := exec_next_cases h
  · cases i with
    | hlt | hltHigh | illegal => exact hs'.elim
    | jal | jr => obtain rfl := hs'; exact zext16_toNat _
    | ba | bnz | bzp | bp | bni | bnc | bge | bgt
    | bvf | bz | bn | bzn | bno | bc | blt | ble =>
      obtain rfl | rfl := hs'
      · exact .inr (zext16_toNat _)
      · exact .inl rfl
    | nop | out | inp | rcf | scf => obtain rfl := hs'; rfl
    | add | adc | sub | sbc | sla | rla => obtain ⟨v, f, rfl⟩ := hs'; simp
    | and | or | eor => obtain ⟨v, f, -, -, rfl⟩ := hs'; simp
    | sra | srl | sll | rra | rrl | rll => obtain ⟨v, f, -, rfl⟩ := hs'; simp
    | ld | cmp => obtain ⟨v, rfl⟩ := hs'; simp
    | st | stIllegalMode => obtain ⟨m, -, -, rfl⟩ := hs'; rfl
  · cases i with
    | jal | jr => exact hr.elim
    | ba | bnz | bzp | bp | bni | bnc | bge | bgt
    | bvf | bz | bn | bzn | bno | bc | blt | ble => exact .inl rfl
    | nop | out | inp | rcf | scf | sla | rla | sra | srl | sll | rra | rrl | rll | add | adc | sub | sbc
    | and | or | eor | ld | cmp | st | stIllegalMode | hlt | hltHigh | illegal => rfl

/-- After the fetches `pc` stays, or is a zero-extended byte. -/
theorem pc_of_exec {i : Instr} {s t : State} (h : exec i s = .next t) :
    t.pc = s.pc ∨ t.pc.toNat < 0x100 := by
  have hpc := pcChangesOnlyByControlTransfers i s t h
  cases i with
  | jal k => exact .inr (hpc ▸ k.isLt)
  | jr => exact .inr (hpc ▸ s.acc.isLt)
  | ba k | bnz k | bzp k | bp k | bni k | bnc k | bge k | bgt k
  | bvf k | bz k | bn k | bzn k | bno k | bc k | blt k | ble k => exact Or.imp_right (fun e => e.trans_lt k.isLt) hpc
  | nop | out | inp | rcf | scf | sla | rla | sra | srl | sll | rra | rrl | rll | add | adc | sub | sbc
  | and | or | eor | ld | cmp | st | stIllegalMode | hlt | hltHigh | illegal => exact .inl hpc

end Sys2Proof.Machine

/-! PROOFS. Everything a step can do (R190 to R194), the machine invariant over steps and over the environment, and
what the ends of a step say. -/

namespace Sys2Proof.Machine

/-! ## The outcomes of a step -/

/-- The fetch unit reads `i` on `s` and leaves `s'` (R70, R71): one word, or two where R58 asks for them. -/
def Fetches (s : State) (i : Instr) (s' : State) : Prop :=
  (s.canFetchOne ∧ needsSecond s.opcode = false ∧ i = decodeWords s.opcode 0 ∧ s' = s.afterOne) ∨
  (s.canFetchTwo ∧ needsSecond s.opcode = true ∧ i = decodeWords s.opcode s.secondWord ∧ s' = s.afterTwo)

theorem step_of_fetches {s s' : State} {i : Instr} (h : Fetches s i s') : step s = exec i s' := by
  obtain ⟨hone, hn, rfl, rfl⟩ | ⟨htwo, hn, rfl, rfl⟩ := h
  · exact step_one_word hone hn
  · have hrun : s.run = .running := htwo.1.1
    simp only [step, hrun, fetchInstr_two htwo hn]

theorem step_of_first_out_of_range {s : State} (hrun : s.run = .running)
    (hpc : s.params.memSize ≤ s.pc.toNat) : step s = enterHalt (.addressOutOfRange s.pc.toNat) s := by
  simp only [step, hrun, fetchInstr, fetchWord_of_le hpc]

theorem step_of_second_out_of_range {s : State} (h : s.canFetchOne) (hn : needsSecond s.opcode = true)
    (hpc : s.params.memSize ≤ s.pc.toNat + 1) :
    step s = enterHalt (.addressOutOfRange (s.pc.toNat + 1)) s.afterOne := by
  obtain ⟨hrun, hlt⟩ := h
  have hn' : needsSecond (s.mem.read s.pc.toNat) = true := hn
  obtain ⟨hle, -⟩ | ⟨-, hone, -⟩ | ⟨-, -, -, hf⟩ | ⟨-, -, hin, -⟩ := fetchInstr_cases s
  · omega
  · simp [hn'] at hone
  · simp only [step, hrun, hf]
    rfl
  · omega

/-- Everything a step can do: stay halted, halt on the fetch of the first or of the second word, or run the
instruction fetched. -/
theorem step_outcomes (s : State) :
    (s.run = .halted ∧ step s = stayHalted s) ∨
    (s.run = .running ∧ s.params.memSize ≤ s.pc.toNat ∧
      step s = enterHalt (.addressOutOfRange s.pc.toNat) s) ∨
    (s.canFetchOne ∧ needsSecond s.opcode = true ∧ s.params.memSize ≤ s.pc.toNat + 1 ∧
      step s = enterHalt (.addressOutOfRange (s.pc.toNat + 1)) s.afterOne) ∨
    (∃ i s', Fetches s i s' ∧ step s = exec i s') := by
  cases hrun : s.run
  case halted => exact .inl ⟨rfl, step_of_halted hrun⟩
  case running =>
    obtain hpc | hpc := Nat.lt_or_ge s.pc.toNat s.params.memSize
    case inr => exact .inr (.inl ⟨rfl, hpc, step_of_first_out_of_range hrun hpc⟩)
    case inl =>
      have hone : s.canFetchOne := ⟨hrun, hpc⟩
      cases hn : needsSecond s.opcode
      case false =>
        have hf : Fetches s _ _ := .inl ⟨hone, hn, rfl, rfl⟩
        exact .inr (.inr (.inr ⟨_, _, hf, step_of_fetches hf⟩))
      case true =>
        obtain hpc' | hpc' := Nat.lt_or_ge (s.pc.toNat + 1) s.params.memSize
        · have hf : Fetches s _ _ := .inr ⟨⟨hone, hpc'⟩, hn, rfl, rfl⟩
          exact .inr (.inr (.inr ⟨_, _, hf, step_of_fetches hf⟩))
        · exact .inr (.inr (.inl ⟨hone, rfl, hpc', step_of_second_out_of_range hone hn hpc'⟩))

/-- The same, on the next state. -/
theorem step_next_cases {s t : State} (h : step s = .next t) :
    (s.run = .halted ∧ t = s.setStatus (some (.halted .alreadyHalted))) ∨
    (s.run = .running ∧ s.params.memSize ≤ s.pc.toNat ∧
      t = (s.setRun .halted).setStatus (some (.halted (.addressOutOfRange s.pc.toNat)))) ∨
    (s.canFetchOne ∧ needsSecond s.opcode = true ∧ s.params.memSize ≤ s.pc.toNat + 1 ∧
      t = (s.afterOne.setRun .halted).setStatus (some (.halted (.addressOutOfRange (s.pc.toNat + 1))))) ∨
    (∃ i s', Fetches s i s' ∧ exec i s' = .next t) := by
  obtain ⟨hrun, he⟩ | ⟨hrun, hpc, he⟩ | ⟨hone, hn, hpc, he⟩ | ⟨i, s', hf, he⟩ := step_outcomes s
  · exact .inl ⟨hrun, stayHalted_eq_next.mp (he.symm.trans h)⟩
  · exact .inr (.inl ⟨hrun, hpc, enterHalt_eq_next.mp (he.symm.trans h)⟩)
  · exact .inr (.inr (.inl ⟨hone, hn, hpc, enterHalt_eq_next.mp (he.symm.trans h)⟩))
  · exact .inr (.inr (.inr ⟨i, s', hf, he.symm.trans h⟩))

/-- Settles O7: what decodes is what the fetch unit reads. -/
theorem stepRunsTheDecodedInstruction : Obligations.StepRunsTheDecodedInstruction := by
  intro s i
  constructor
  · intro hone hd
    obtain ⟨hn, hi⟩ := decode_one hd
    exact step_of_fetches (.inl ⟨hone, hn, hi, rfl⟩)
  · intro htwo hd
    obtain ⟨hn, hi⟩ := decode_two hd
    exact step_of_fetches (.inr ⟨htwo, hn, hi, rfl⟩)

/-- Settles O8: the second outcome of a step. -/
theorem opcodeFetchOutOfRangeHalts : Obligations.OpcodeFetchOutOfRangeHalts :=
  fun _ => step_of_first_out_of_range

/-- Settles O9: the third outcome, whatever the instruction. -/
theorem secondWordFetchOutOfRangeHalts : Obligations.SecondWordFetchOutOfRangeHalts :=
  fun _ => step_of_second_out_of_range

/-- Settles O10: the first outcome. -/
theorem stepOfAHaltedMachineChangesNothing : Obligations.StepOfAHaltedMachineChangesNothing :=
  fun _ => step_of_halted

/-- Settles O11: every outcome of a step is a next state, `exec_next` among them. -/
theorem everyStepAnswersANextState : Obligations.EveryStepAnswersANextState := by
  intro s
  obtain ⟨-, he⟩ | ⟨-, -, he⟩ | ⟨-, -, -, he⟩ | ⟨i, s', -, he⟩ := step_outcomes s
  · exact ⟨_, he⟩
  · exact ⟨_, he⟩
  · exact ⟨_, he⟩
  · rw [he]
    exact exec_next i s'

/-! ## The fetches -/

section
variable {s s' : State} {i : Instr}

/-- The fetches write `pc`, `mar` and `ir` only, and `ir` takes the first word. -/
theorem Fetches.frame (h : Fetches s i s') :
    s' = { s with pc := s'.pc, mar := s'.mar, ir := s.opcode } := by
  obtain ⟨-, -, -, rfl⟩ | ⟨-, -, -, rfl⟩ := h <;> rfl

theorem Fetches.running (h : Fetches s i s') : s'.run = .running := by
  obtain ⟨hone, -, -, rfl⟩ | ⟨htwo, -, -, rfl⟩ := h
  · exact hone.1
  · exact htwo.1.1

end

/-! ## The machine invariant -/

theorem Params.memSize_le {p : Params} (h : p.legal = true) : 0x200 ≤ p.memSize ∧ p.memSize ≤ 0x10000 := by
  simpa [Params.legal] using h

/-- The program counter after a fetch is at most one past the word that was fetched. -/
theorem succ_toNat_le (p : Addr16) : (p + 1).toNat ≤ p.toNat + 1 := by
  rw [BitVec.toNat_add]
  exact Nat.mod_le _ _

/-- Where the next address exists, `pc` reaches it without a wrap. -/
theorem succ_toNat_of_lt {p : Addr16} {n : Nat} (hn : n ≤ 0x10000) (h : p.toNat + 1 < n) :
    (p + 1).toNat = p.toNat + 1 := by
  rw [BitVec.toNat_add]
  exact Nat.mod_eq_of_lt (by simp; omega)

theorem State.Inv.halt {s : State} (h : s.Inv) (r : HaltReason) :
    ((s.setRun .halted).setStatus (some (.halted r))).Inv :=
  { h with status_agrees := rfl }

theorem State.Inv.afterOne {s : State} (h : s.Inv) (hone : s.canFetchOne) : s.afterOne.Inv :=
  { h with
    pc_le := (succ_toNat_le s.pc).trans hone.2
    mar_lt := hone.2 }

theorem State.Inv.afterTwo {s : State} (h : s.Inv) (htwo : s.canFetchTwo) : s.afterTwo.Inv := by
  have hsucc : (s.pc + 1).toNat = s.pc.toNat + 1 :=
    succ_toNat_of_lt (Params.memSize_le h.params_legal).2 htwo.2
  have hmar : (s.pc + 1).toNat < s.params.memSize := hsucc ▸ htwo.2
  have hpc : (s.pc + 2).toNat ≤ s.params.memSize := by
    have hle := succ_toNat_le (s.pc + 1)
    rw [BitVec.add_assoc] at hle
    exact hle.trans hmar
  exact { h with pc_le := hpc, mar_lt := hmar }

theorem State.Inv.fetches {s s' : State} {i : Instr} (h : s.Inv) (hf : Fetches s i s') : s'.Inv := by
  obtain ⟨hone, -, -, rfl⟩ | ⟨htwo, -, -, rfl⟩ := hf
  · exact h.afterOne hone
  · exact h.afterTwo htwo

theorem State.Inv.exec {s t : State} {i : Instr} (h : s.Inv) (hrun : s.run = .running)
    (he : exec i s = .next t) : t.Inv := by
  have hpc := pc_of_exec he
  obtain ⟨s', hs', rfl⟩ | ⟨r, -, rfl⟩ := exec_next_cases he
  · obtain ⟨hmar, -, hparams, hrun'⟩ := hs'.frame
    have hsize := (Params.memSize_le h.params_legal).1
    have hpc_le := h.pc_le
    have hmem : s'.mem.wf = true ∧ s'.mem.within s.params.memSize = true := by
      obtain hmem | ⟨-, -, -, x, v, -, -, hx, hmem⟩ := hs'.mem
      · rw [hmem]
        exact ⟨h.mem_wf, h.mem_within⟩
      · rw [hmem]
        exact ⟨Memory.wf_write h.mem_wf, Memory.within_write hx h.mem_within⟩
    constructor
    case params_legal => simpa [hparams] using h.params_legal
    case mem_wf => exact hmem.1
    case mem_within => simpa [hparams] using hmem.2
    case pc_le =>
      simp only [State.setStatus_pc, State.setStatus_params, hparams] at hpc ⊢
      obtain hpc | hpc := hpc
      · rwa [hpc]
      · omega
    case mar_lt => simpa [hparams, hmar] using h.mar_lt
    case status_agrees => simp [State.statusAgrees, hrun', hrun]
  · exact h.halt r

/-- Settles O12: the fetches keep the invariant, and so does every meaning on a running machine. -/
theorem everyStepKeepsTheInvariant : Obligations.EveryStepKeepsTheInvariant := by
  intro s t h hstep
  obtain ⟨hrun, rfl⟩ | ⟨-, -, rfl⟩ | ⟨hone, -, -, rfl⟩ | ⟨i, s', hf, he⟩ := step_next_cases hstep
  · exact { h with status_agrees := by simp [State.statusAgrees, hrun] }
  · exact h.halt _
  · exact (h.afterOne hone).halt _
  · exact (h.fetches hf).exec hf.running he

/-- A reset over legal parameters meets the invariant, whatever its image. -/
theorem State.inv_resetWith (image : List Byte) {s : State} (h : s.params.legal = true) :
    (s.resetWith image).Inv where
  params_legal := h
  mem_wf := Memory.wf_ofImage _ image
  mem_within := Memory.within_ofImage _ image
  pc_le := Nat.zero_le _
  mar_lt := by
    have hsize := (Params.memSize_le h).1
    exact Nat.lt_of_lt_of_le (by decide : (0 : Addr16).toNat < 0x200) hsize
  status_agrees := rfl

/-- Settles O13: the reset state is the reset of itself with no image. -/
theorem resetMeetsTheInvariant : Obligations.ResetMeetsTheInvariant :=
  State.inv_resetWith [] (s := State.reset) (by decide)

theorem State.Inv.envAct {s : State} (h : s.Inv) (e : EnvAction) : (envAct e s).Inv := by
  cases e with
  | reset image => exact State.inv_resetWith image h.params_legal
  | writeInput v => exact { h with }
  | setInputFlag => exact { h with }
  | clearOutputFlag => exact { h with }

/-- Settles O14, by induction on how the state is reached. -/
theorem reachableStatesMeetTheInvariant : Obligations.ReachableStatesMeetTheInvariant := by
  intro s hs
  induction hs with
  | reset image s h => exact State.inv_resetWith image h
  | step s t _ hstep ih => exact everyStepKeepsTheInvariant s t ih hstep
  | env e s _ ih => exact ih.envAct e

end Sys2Proof.Machine

/-! PROOFS. What the ends of a step say: the reasons of a halt with their causes (R200 to R203), precision of the
faults (R206), the latches, what a step does not depend on, and the halted state with the reset that leaves it (R191,
R207, R220). -/

namespace Sys2Proof.Machine

/-! ## Halts of a decoded instruction -/

/-- The words of what was decoded are the words it was decoded from. -/
theorem words_of_encode_decodeWords {w d w' : Byte} {l : List Byte}
    (h : encode (decodeWords w d) = w' :: l) :
    w = w' ∧ ((if needsSecond w then [d] else []) = l) := by
  rw [(readsBack w d).2] at h
  cases hn : needsSecond w <;> simpa [hn] using h

theorem modeOfField_eq_mem {b : BitVec 3} {m : MemMode} (h : modeOfField b = .mem m) : b = m.bits := by
  cases m <;> (revert b; decide)

/-- Why the instruction read from `w` and `d` halts (R200): HLT, an illegal first word, ST in another mode than the
memory modes, or an operand whose address does not exist. -/
def HaltCause (w d : Byte) (s : State) (r : HaltReason) : Prop :=
  r = .hlt ∨ r = .illegalOpcode s.ir ∨
  (w.toNat / 16 = 7 ∧ w.toNat % 8 < 4 ∧ needsSecond w = true ∧ r = .illegalStoreMode s.ir) ∨
  (6 ≤ w.toNat / 16 ∧ needsSecond w = true ∧ ∃ m : MemMode, w.toNat % 8 = m.bits.toNat ∧
    s.params.memSize ≤ effectiveAddress m d s ∧ r = .addressOutOfRange (effectiveAddress m d s))

section
variable {w d d' : Byte} {s : State}

theorem second_of_words (h : (if needsSecond w then [d] else []) = [d']) :
    needsSecond w = true ∧ d = d' := by
  cases hn : needsSecond w <;> simp_all

theorem wordM_toNat (op : BitVec 4) (a : RegSel) (low : BitVec 3) :
    (wordM op a low).toNat / 16 = op.toNat ∧ (wordM op a low).toNat % 8 = low.toNat := by
  rw [← fieldOp_toNat, ← fieldB_toNat, fieldOp_wordM, fieldB_wordM]
  exact ⟨rfl, rfl⟩

theorem haltCause_of_operand {op : BitVec 4} {a : RegSel} {m : MemMode} (hop : 6 ≤ op.toNat)
    (hw : w = wordM op a m.bits ∧ (if needsSecond w then [d] else []) = [d'])
    (hx : s.params.memSize ≤ effectiveAddress m d' s) :
    HaltCause w d s (.addressOutOfRange (effectiveAddress m d' s)) := by
  obtain ⟨hw, hd⟩ := hw
  obtain ⟨hn, rfl⟩ := second_of_words hd
  obtain ⟨hupper, hmode⟩ := wordM_toNat op a m.bits
  rw [← hw] at hupper hmode
  exact .inr (.inr (.inr ⟨hupper ▸ hop, hn, m, hmode, hx, rfl⟩))

theorem haltCause_of_store {a : RegSel} {b : BitVec 3} {r : HaltReason}
    (hw : w = wordM 0x7 a b ∧ (if needsSecond w then [d] else []) = [d'])
    (h : HaltsWith (.st a b d') s r) : HaltCause w d s r := by
  obtain ⟨m, hm, hx, rfl⟩ | ⟨hb, rfl⟩ := h
  · exact haltCause_of_operand (by decide) (modeOfField_eq_mem hm ▸ hw) hx
  · obtain ⟨hw, hd⟩ := hw
    obtain ⟨hn, -⟩ := second_of_words hd
    obtain ⟨hupper, hmode⟩ := wordM_toNat 0x7 a b
    rw [← hw] at hupper hmode
    have hlt : ∀ b : BitVec 3, b.getLsbD 2 = false → b.toNat < 4 := by decide
    exact .inr (.inr (.inl ⟨hupper, hmode ▸ hlt b hb, hn, rfl⟩))

/-- The first word is that of the instruction that halts: what was decoded encodes to what was read. -/
theorem haltCause_of_haltsWith {r : HaltReason} (h : HaltsWith (decodeWords w d) s r) :
    HaltCause w d s r := by
  have words := fun w' l => words_of_encode_decodeWords (w := w) (d := d) (w' := w') (l := l)
  generalize decodeWords w d = i at h words
  cases i with
  | hlt | hltHigh => exact .inl h
  | illegal => exact .inr (.inl h)
  | st | stIllegalMode => exact haltCause_of_store (words _ _ rfl) h
  | ld a b | add a b | adc a b | sub a b | sbc a b | and a b | or a b | eor a b | cmp a b =>
    obtain ⟨m, d', rfl, hx, rfl⟩ := h
    exact haltCause_of_operand (by decide) (words _ _ rfl) hx
  | nop | jal | jr | out | inp | rcf | scf | sla | rla | sra | srl | sll | rra | rrl | rll
  | ba | bnz | bzp | bp | bni | bnc | bge | bgt
  | bvf | bz | bn | bzn | bno | bc | blt | ble => exact h.elim

end

/-! ## The reasons of a step -/

/-- The end of an instruction that was fetched: it completes and the machine runs, or it halts on the state after the
fetches. -/
theorem Fetches.next_cases {s s' t : State} {i : Instr} (hf : Fetches s i s') (h : exec i s' = .next t) :
    (t.run = .running ∧ t.status = some .continue) ∨
    (∃ r, HaltsWith i s' r ∧ t = (s'.setRun .halted).setStatus (some (.halted r))) := by
  obtain ⟨s'', hs'', rfl⟩ | hr := exec_next_cases h
  · obtain ⟨-, -, -, hrun⟩ := hs''.frame
    exact .inl ⟨hrun.trans hf.running, rfl⟩
  · exact .inr hr

/-- The same, with the cause of the halt. An instruction with a second word halts with both words fetched. -/
theorem Fetches.halt_cause {s s' : State} {i : Instr} {r : HaltReason} (hf : Fetches s i s')
    (h : HaltsWith i s' r) : HaltCause s.opcode s.secondWord s' r ∧
      (needsSecond s.opcode = true → s.canFetchTwo ∧ s' = s.afterTwo) := by
  obtain ⟨-, hn, rfl, rfl⟩ | ⟨htwo, hn, rfl, rfl⟩ := hf
  · refine ⟨?_, fun hn' => by simp [hn] at hn'⟩
    obtain hr | hr | ⟨-, -, hn', -⟩ | ⟨-, hn', -⟩ := haltCause_of_haltsWith h
    · exact .inl hr
    · exact .inr (.inl hr)
    · simp [hn] at hn'
    · simp [hn] at hn'
  · exact ⟨haltCause_of_haltsWith h, fun _ => ⟨htwo, rfl⟩⟩

/-- Settles O18: the four outcomes of a step, of which a running machine excludes the first. -/
theorem runningStepContinuesOrHaltsWithAReason : Obligations.RunningStepContinuesOrHaltsWithAReason := by
  intro s t hrun h
  obtain ⟨hrun', -⟩ | ⟨-, -, rfl⟩ | ⟨-, -, -, rfl⟩ | ⟨i, s', hf, he⟩ := step_next_cases h
  · simp [hrun] at hrun'
  · exact .inr ⟨rfl, _, rfl, .inr rfl⟩
  · exact .inr ⟨rfl, _, rfl, .inr rfl⟩
  · obtain hcont | ⟨r, hr, rfl⟩ := hf.next_cases he
    · exact .inl hcont
    · refine .inr ⟨rfl, r, rfl, ?_⟩
      obtain ⟨rfl | rfl | ⟨-, -, -, rfl⟩ | ⟨-, -, m, -, -, rfl⟩, -⟩ := hf.halt_cause hr
      · exact .inl rfl
      · exact .inr rfl
      · exact .inr rfl
      · exact .inr rfl

/-- Settles O16: where a step halts with a fault, only the fetches came before. -/
theorem faultsArePrecise : Obligations.FaultsArePrecise := by
  intro s t r h hr hfault
  obtain ⟨-, rfl⟩ | ⟨-, -, rfl⟩ | ⟨-, -, -, rfl⟩ | ⟨i, s', hf, he⟩ := step_next_cases h
  · cases hr
    cases hfault
  · cases hr
    rfl
  · cases hr
    rfl
  · obtain ⟨-, hcont⟩ | ⟨r', -, rfl⟩ := hf.next_cases he
    · cases hcont.symm.trans hr
    · cases hr
      rw [hf.frame]
      rfl

/-- An `IllegalStoreMode` comes from ST in one of the modes 0 to 3, after both words were fetched (R202). -/
theorem step_eq_illegalStoreMode {s t : State} {w : Byte} (h : step s = .next t)
    (hw : t.status = some (.halted (.illegalStoreMode w))) :
    w = s.opcode ∧ w.toNat / 16 = 7 ∧ w.toNat % 8 < 4 ∧ t.ir = w ∧ t.pc = s.pc + 2 ∧
      t.mar = s.pc + 1 := by
  obtain ⟨-, rfl⟩ | ⟨-, -, rfl⟩ | ⟨-, -, -, rfl⟩ | ⟨i, s', hf, he⟩ := step_next_cases h
  · cases hw
  · cases hw
  · cases hw
  · obtain ⟨-, hcont⟩ | ⟨r, hr, rfl⟩ := hf.next_cases he
    · cases hcont.symm.trans hw
    · cases hw
      obtain ⟨hr | hr | ⟨hupper, hmode, hn, hr⟩ | ⟨-, -, m, -, -, hr⟩, htwo⟩ := hf.halt_cause hr
      · cases hr
      · cases hr
      · obtain ⟨-, rfl⟩ := htwo hn
        cases hr
        exact ⟨rfl, hupper, hmode, rfl, rfl, rfl⟩
      · cases hr

/-- An `AddressOutOfRange` names the address of the first word, of the second or of an operand (R203). -/
theorem step_eq_addressOutOfRange {s t : State} {x : Nat} (h : step s = .next t)
    (hx : t.status = some (.halted (.addressOutOfRange x))) : s.params.memSize ≤ x ∧
    ((x = s.pc.toNat ∧ t.pc = s.pc ∧ t.mar = s.mar ∧ t.ir = s.ir) ∨
    (s.canFetchOne ∧ needsSecond s.opcode = true ∧ x = s.pc.toNat + 1 ∧
      t.pc = s.pc + 1 ∧ t.mar = s.pc ∧ t.ir = s.opcode) ∨
    (s.canFetchTwo ∧ 6 ≤ s.opcode.toNat / 16 ∧ ∃ m : MemMode, s.opcode.toNat % 8 = m.bits.toNat ∧
      x = effectiveAddress m s.secondWord s ∧
      t.pc = s.pc + 2 ∧ t.mar = s.pc + 1 ∧ t.ir = s.opcode)) := by
  obtain ⟨-, rfl⟩ | ⟨-, hpc, rfl⟩ | ⟨hone, hn, hpc, rfl⟩ | ⟨i, s', hf, he⟩ := step_next_cases h
  · cases hx
  · cases hx
    exact ⟨hpc, .inl ⟨rfl, rfl, rfl, rfl⟩⟩
  · cases hx
    exact ⟨hpc, .inr (.inl ⟨hone, hn, rfl, rfl, rfl, rfl⟩)⟩
  · obtain ⟨-, hcont⟩ | ⟨r, hr, rfl⟩ := hf.next_cases he
    · cases hcont.symm.trans hx
    · cases hx
      obtain ⟨hr | hr | ⟨-, -, -, hr⟩ | ⟨hupper, hn, m, hmode, hle, hr⟩, htwo⟩ := hf.halt_cause hr
      · cases hr
      · cases hr
      · cases hr
      · obtain ⟨hfetch, rfl⟩ := htwo hn
        cases hr
        have haddr : effectiveAddress m s.secondWord s.afterTwo = effectiveAddress m s.secondWord s := by
          cases m <;> rfl
        rw [haddr] at hle ⊢
        exact ⟨hle, .inr (.inr ⟨hfetch, hupper, m, hmode, rfl, rfl, rfl, rfl⟩)⟩

/-- Settles O17: one inversion of the step for each reason. -/
theorem faultReasonsNameTheirCause : Obligations.FaultReasonsNameTheirCause := by
  intro s t h
  refine ⟨fun w hw => ?_, fun w hw => step_eq_illegalStoreMode h hw, fun x hx => ?_⟩
  · obtain ⟨hone, rfl, hupper⟩ := step_eq_illegalOpcode h hw
    cases (step_of_upper_five hone hupper).symm.trans h
    exact ⟨rfl, hupper, rfl, rfl, rfl⟩
  · obtain ⟨hle, hcause⟩ := step_eq_addressOutOfRange h hx
    refine ⟨hle, fun hlegal => ?_⟩
    obtain hfirst | ⟨hone, hsecond⟩ | ⟨htwo, hupper, m, hmode, rfl, hstop⟩ := hcause
    · exact .inl hfirst
    · exact .inr (.inl ⟨hone.2, hsecond⟩)
    · obtain rfl : m = .ixData := mode_of_out_of_range hlegal hle
      exact .inr (.inr ⟨htwo.1.2, htwo.2, hupper, hmode, rfl, hstop⟩)

/-! ## The latches over a step (R17, R18) -/

theorem latches_of_exec {i : Instr} {s t : State} (h : exec i s = .next t) :
    (t.obuf = s.obuf ∨ (∃ x, i = .out x) ∧ t.obuf.flag = true) ∧
    (t.ibuf = s.ibuf ∨ (∃ x, i = .inp x) ∧ t.ibuf = { s.ibuf with flag := false }) := by
  obtain ⟨s', hs', rfl⟩ | ⟨r, -, rfl⟩ := exec_next_cases h
  · exact hs'.latches
  · exact ⟨.inl rfl, .inl rfl⟩

/-- Settles O25: the fetches touch no latch, and a meaning by `latches_of_exec`. -/
theorem latchesChangeOnlyByOutAndIn : Obligations.LatchesChangeOnlyByOutAndIn := by
  constructor
  · intro i s t h
    obtain ⟨hobuf, hibuf⟩ := latches_of_exec h
    exact ⟨fun hne => hobuf.resolve_right fun ⟨⟨x, hx⟩, _⟩ => hne x hx,
      fun hne => hibuf.resolve_right fun ⟨⟨x, hx⟩, _⟩ => hne x hx⟩
  · intro s t h
    obtain ⟨-, rfl⟩ | ⟨-, -, rfl⟩ | ⟨-, -, -, rfl⟩ | ⟨i, s', hf, he⟩ := step_next_cases h
    · exact ⟨id, id, rfl⟩
    · exact ⟨id, id, rfl⟩
    · exact ⟨id, id, rfl⟩
    · have hobuf' : s'.obuf = s.obuf := (congrArg State.obuf hf.frame :)
      have hibuf' : s'.ibuf = s.ibuf := (congrArg State.ibuf hf.frame :)
      obtain ⟨hobuf, hibuf⟩ := latches_of_exec he
      rw [hobuf'] at hobuf
      rw [hibuf'] at hibuf
      refine ⟨fun hset => ?_, ?_⟩
      · obtain hobuf | ⟨-, hflag⟩ := hobuf
        · rwa [hobuf]
        · exact hflag
      · obtain hibuf | ⟨-, hibuf⟩ := hibuf <;> simp [hibuf]

/-! ## What a step does not depend on -/

/-- Settles O19: the fetch of the first word writes `mar`, and no step that does without it reads `mar`. -/
theorem marIsNeverObserved : Obligations.MarIsNeverObserved := by
  intro s t m h
  obtain ⟨hrun, rfl⟩ | ⟨hrun, hpc, rfl⟩ | ⟨hone, hn, hpc, rfl⟩ | ⟨i, s', hf, he⟩ := step_next_cases h
  · exact ⟨_, step_of_halted (s := { s with mar := m }) hrun, rfl, fun hone => by cases hrun.symm.trans hone.1⟩
  · exact ⟨_, step_of_first_out_of_range (s := { s with mar := m }) hrun hpc, rfl,
      fun hone => absurd hone.2 (Nat.not_lt.mpr hpc)⟩
  · exact ⟨_, step_of_second_out_of_range (s := { s with mar := m }) hone hn hpc, rfl, fun _ => rfl⟩
  · exact ⟨t, (step_of_fetches (s := { s with mar := m }) hf).trans he, rfl, fun _ => rfl⟩

section
variable (s : State) (x : Option StepStatus)

@[simp] theorem readA_setStatus (a : RegSel) : readA a (s.setStatus x) = readA a s := by
  cases a <;> rfl

@[simp] theorem effectiveAddress_setStatus (m : MemMode) (d : Byte) :
    effectiveAddress m d (s.setStatus x) = effectiveAddress m d s := by
  cases m <;> rfl

@[simp] theorem readB_setStatus (b : OperandB) : readB b (s.setStatus x) = readB b s := by
  cases b with
  | mem m d => simp [readB, memRead]
  | acc | ix | imm => rfl

/-- The end of a step writes the status anew. -/
@[simp] theorem enterHalt_setStatus (r : HaltReason) : enterHalt r (s.setStatus x) = enterHalt r s := rfl

theorem withB_setStatus {b : OperandB} {rest rest' : Byte → Result} (h : ∀ v, rest v = rest' v) :
    withB b (s.setStatus x) rest = withB b s rest' := by
  simp only [withB, readB_setStatus, enterHalt_setStatus, h]

theorem aluWrite_setStatus (f : Byte → Byte → Flags → AluOut) (a : RegSel) (b : OperandB) :
    aluWrite f a b (s.setStatus x) = aluWrite f a b s :=
  withB_setStatus s x fun v => by cases a <;> rfl

theorem shiftA_setStatus (f : Byte → AluOut) (a : RegSel) : shiftA f a (s.setStatus x) = shiftA f a s := by
  cases a <;> rfl

theorem branch_setStatus (cc : Fin 16) (t : Byte) : branch cc t (s.setStatus x) = branch cc t s := by
  have hcond : condHolds cc (s.setStatus x) = condHolds cc s := rfl
  simp only [branch, hcond]
  split <;> rfl

theorem storeThrough_setStatus (a : RegSel) (b : BitVec 3) (d : Byte) :
    storeThrough a b d (s.setStatus x) = storeThrough a b d s := by
  unfold storeThrough
  cases modeOfField b with
  | acc | ix | imm => rfl
  | mem m =>
    simp only [writeB, memWrite, effectiveAddress_setStatus, readA_setStatus, State.setStatus_params,
      State.setStatus_mem]
    by_cases hlt : effectiveAddress m d s < s.params.memSize
    · simp only [if_pos hlt]
      rfl
    · simp only [if_neg hlt]
      rfl

theorem exec_setStatus (i : Instr) : exec i (s.setStatus x) = exec i s := by
  cases i with
  | nop | jal | jr | out | inp | rcf | scf | hlt | hltHigh | illegal => rfl
  | ba | bnz | bzp | bp | bni | bnc | bge | bgt
  | bvf | bz | bn | bzn | bno | bc | blt | ble => exact branch_setStatus s x _ _
  | sla a | rla a | sra a | srl a | sll a | rra a | rrl a | rll a => exact shiftA_setStatus s x _ a
  | ld a => exact withB_setStatus s x fun v => by cases a <;> rfl
  | st a b d | stIllegalMode a b d => exact storeThrough_setStatus s x a b d
  | add a b | adc a b | sub a b | sbc a b | and a b | or a b | eor a b => exact aluWrite_setStatus s x _ a b
  | cmp a => exact withB_setStatus s x fun v => by cases a <;> rfl

end

/-- Settles O20: neither the fetches nor a meaning reads the status. -/
theorem statusIsNeverRead : Obligations.StatusIsNeverRead := by
  intro s x
  obtain ⟨hrun, he⟩ | ⟨hrun, hpc, he⟩ | ⟨hone, hn, hpc, he⟩ | ⟨i, s', hf, he⟩ := step_outcomes s <;> rw [he]
  · exact step_of_halted (s := { s with status := x }) hrun
  · exact step_of_first_out_of_range (s := { s with status := x }) hrun hpc
  · exact step_of_second_out_of_range (s := { s with status := x }) hone hn hpc
  · have hf' : Fetches (s.setStatus x) i (s'.setStatus x) := by
      obtain ⟨hone, hn, hi, rfl⟩ | ⟨htwo, hn, hi, rfl⟩ := hf
      · exact .inl ⟨hone, hn, hi, rfl⟩
      · exact .inr ⟨htwo, hn, hi, rfl⟩
    exact (step_of_fetches hf').trans (exec_setStatus s' x i)

/-! ## The halted state and the reset (R207, R220) -/

theorem run_of_exec {i : Instr} {s t : State} (h : exec i s = .next t) : t.run = s.run ∨ t.run = .halted := by
  obtain ⟨s', hs', rfl⟩ | ⟨r, -, rfl⟩ := exec_next_cases h
  · obtain ⟨-, -, -, hrun⟩ := hs'.frame
    exact .inl hrun
  · exact .inr rfl

theorem core_run_succ (M : Host.Core) (k : Nat) {s t : M.State} (h : M.step s = .next t) :
    M.run (k + 1) s = M.run k t := by
  simp only [Host.Core.run, h]

/-- Any number of steps of a halted machine changes the status only. -/
theorem run_of_halted (k : Nat) {s : State} (h : s.run = .halted) :
    ∃ t, Host.Core.run core k s = .next t ∧ t.run = .halted ∧ t = { s with status := t.status } := by
  induction k generalizing s with
  | zero => exact ⟨s, rfl, h, rfl⟩
  | succ k ih =>
    have hstep : core.step s = .next (s.setStatus (some (.halted .alreadyHalted))) := step_of_halted h
    obtain ⟨t, ht, hrun, heq⟩ := ih (s := s.setStatus (some (.halted .alreadyHalted))) h
    exact ⟨t, (core_run_succ core k hstep).trans ht, hrun, heq⟩

theorem resetWith_congr (image : List Byte) {s s' : State} (hibuf : s.ibuf = s'.ibuf)
    (hparams : s.params = s'.params) : s.resetWith image = s'.resetWith image := by
  simp only [State.resetWith, hibuf, hparams]

/-- Settles O15: no meaning sets the driver running, and a halted step changes the status only. -/
theorem onlyResetLeavesTheHaltedState : Obligations.OnlyResetLeavesTheHaltedState := by
  refine ⟨fun i s t hrun h => ?_, fun k s => run_of_halted k, fun image s s' => ⟨rfl, resetWith_congr image⟩⟩
  obtain hrun' | hrun' := run_of_exec h
  · exact hrun'.trans hrun
  · exact hrun'

/-- An image of `MEM_SIZE` bytes is what the memory after the reset reads as (R221). -/
theorem Memory.read_ofImage {n x : Nat} {image : List Byte} (hlen : image.length = n) (hx : x < n) :
    some ((Memory.ofImage n image).read x) = image[x]? := by
  have hread := Memory.read_ofBytes 0 image x
  rw [Nat.zero_add] at hread
  rw [Memory.ofImage, List.take_of_length_le hlen.le, hread, List.getElem?_eq_getElem (hlen ▸ hx),
    List.getD_eq_getElem _ _ (hlen ▸ hx)]

/-- Settles O59: the reset writes every field but the input latch and the parameters, and the memory it writes reads as
the image. -/
theorem resetInstallsTheImage : Obligations.ResetInstallsTheImage := by
  refine ⟨fun image s => ?_, fun s t hrun h => ?_, fun e s hrun hne => ?_⟩
  · exact ⟨rfl, rfl, rfl, rfl, rfl, rfl, rfl, rfl, rfl, rfl, fun hlen x hx => Memory.read_ofImage hlen hx,
      fun s' => resetWith_congr image⟩
  · rw [step_of_halted hrun] at h
    rw [stayHalted_eq_next.mp h]
    exact hrun
  · cases e with
    | reset image => exact absurd rfl (hne image)
    | writeInput v => exact hrun
    | setInputFlag => exact hrun
    | clearOutputFlag => exact hrun

end Sys2Proof.Machine

/-! PROOFS. Operands, memory, LD and ST (R32, R33, R72 to R77, R90 to R92, R203). -/

namespace Sys2Proof.Machine

/-! ## Operands -/

/-- Settles O28: `readA` and `writeA` go by the same selector. -/
theorem operandASelectsOneRegister : Obligations.OperandASelectsOneRegister :=
  fun _ _ => ⟨rfl, rfl, rfl, rfl⟩

/-- Outside mode 7 every effective address exists, in every memory of a legal size (R75). -/
theorem effectiveAddress_lt {m : MemMode} (d : Byte) {s : State} (hl : s.params.legal = true)
    (hm : m ≠ .ixData) : effectiveAddress m d s < s.params.memSize := by
  by_contra hle
  exact hm (mode_of_out_of_range hl (Nat.not_lt.mp hle))

/-- Settles O27: a memory mode reads at its effective address, which can be out of range in mode 7 only. -/
theorem operandBInEveryMode : Obligations.OperandBInEveryMode := by
  intro s hl
  refine ⟨rfl, rfl, fun _ _ => rfl, fun d => ?_, fun d => ?_, fun d => ?_, fun d hlt => ?_, fun d hle => ?_⟩
  · exact memRead_of_lt (effectiveAddress_lt (m := .absText) d hl (by decide))
  · exact memRead_of_lt (effectiveAddress_lt (m := .absData) d hl (by decide))
  · exact memRead_of_lt (effectiveAddress_lt (m := .ixText) d hl (by decide))
  · exact memRead_of_lt hlt
  · exact memRead_of_le hle

/-! ## Memory -/

/-- Settles O29: the laws of the memory list, within the bound that `memRead` and `memWrite` test. -/
theorem memoryAccessIsBounded : Obligations.MemoryAccessIsBounded := by
  intro s x v hwf
  refine ⟨fun hlt => ⟨memRead_of_lt hlt, _, memWrite_of_lt hlt, rfl, ?_, fun y hy => ?_, Memory.wf_write hwf⟩,
    fun hle => ⟨memRead_of_le hle, memWrite_of_le hle⟩⟩
  · rw [memRead_of_lt (by simpa using hlt), State.setMem_mem, Memory.read_write_same hwf]
  · simp only [memRead, State.setMem_params, State.setMem_mem, Memory.read_write_other hy]

/-! ## Load and store -/

/-- Settles O30: the rest of LD on the value of operand B. -/
theorem loadResult : Obligations.LoadResult :=
  fun _ _ _ _ h => withB_of_ok _ h

/-- ST in a memory mode, at an address that exists (R91). -/
theorem exec_st_of_lt {a : RegSel} {b : BitVec 3} {d : Byte} {s : State} {m : MemMode}
    (hm : modeOfField b = .mem m) (h : effectiveAddress m d s < s.params.memSize) :
    exec (.st a b d) s =
      .next (s.setMem (s.mem.write (effectiveAddress m d s) (readA a s))).done := by
  have hw : writeB m d (readA a s) s = _ := memWrite_of_lt h
  simp only [exec, execSt, storeThrough, hm, hw]
  rfl

/-- ST in a memory mode, at an address that does not exist (R203). -/
theorem exec_st_of_le {a : RegSel} {b : BitVec 3} {d : Byte} {s : State} {m : MemMode}
    (hm : modeOfField b = .mem m) (h : s.params.memSize ≤ effectiveAddress m d s) :
    exec (.st a b d) s = .next (s.stopped (.addressOutOfRange (effectiveAddress m d s))) := by
  have hw : writeB m d (readA a s) s = _ := memWrite_of_le h
  simp only [exec, execSt, storeThrough, hm, hw]
  rfl

/-- Settles O31: in each of the four modes the address is that mode's effective address. -/
theorem storeResult : Obligations.StoreResult := by
  intro a b d s x hwf hmode hlt
  have hm : ∃ m, modeOfField b = .mem m ∧ x = effectiveAddress m d s := by
    obtain ⟨rfl, rfl⟩ | ⟨rfl, rfl⟩ | ⟨rfl, rfl⟩ | ⟨rfl, rfl⟩ := hmode
    · exact ⟨.absText, rfl, rfl⟩
    · exact ⟨.absData, rfl, rfl⟩
    · exact ⟨.ixText, rfl, rfl⟩
    · exact ⟨.ixData, rfl, rfl⟩
  obtain ⟨m, hm, rfl⟩ := hm
  exact ⟨_, exec_st_of_lt hm hlt, rfl, Memory.read_write_same hwf, fun y hy => Memory.read_write_other hy⟩

/-- Settles O32: the modes 0 to 3 are no memory modes. -/
theorem storeInAnIllegalModeHalts : Obligations.StoreInAnIllegalModeHalts := by
  intro a b d s hb
  have hne : ∀ m, modeOfField b ≠ .mem m := fun m => by cases m <;> (revert b; decide)
  obtain ⟨m, hm, -⟩ | ⟨m, hm, -⟩ | ⟨-, h⟩ := storeThrough_cases a b d s
  · exact absurd hm (hne m)
  · exact absurd hm (hne m)
  · exact h

/-- Settles O33: nine of the ten fault where they read operand B, the store where it writes. -/
theorem indexedDataAccessOutOfRangeHalts : Obligations.IndexedDataAccessOutOfRangeHalts := by
  intro a d s hle
  have hread : readB (.mem .ixData d) s = .error (.addressOutOfRange (0x100 + d.toNat + s.ix.toNat)) :=
    memRead_of_le hle
  have hhalt := fun rest => withB_of_error rest hread
  simp only [List.forall_mem_cons]
  exact ⟨hhalt _, hhalt _, hhalt _, hhalt _, hhalt _, hhalt _, hhalt _, hhalt _, hhalt _,
    exec_st_of_le (b := 7) (m := .ixData) rfl hle, by simp⟩

end Sys2Proof.Machine

/-! PROOFS. The branches, JAL and JR, the one-word control instructions, and the steps made of them (R140 to R157,
R170 to R173, R180 to R185, R45). -/

namespace Sys2Proof.Machine

/-! ## The branches -/

theorem branch_eq_next (cc : Fin 16) (t : Byte) (s : State) : branch cc t s = .next { s with
    pc := if condHolds cc s then zext16 t else s.pc, status := some .continue } := by
  unfold branch
  split <;> rfl

/-- Settles O49: each of the sixteen is `branch` with its own code. -/
theorem branchesWithAnyConditionTable : Obligations.BranchesWithAnyConditionTable := by
  intro s t
  have next := fun cc => branch_eq_next cc t s
  simp only [List.forall_mem_cons]
  exact ⟨next 0, next 1, next 2, next 3, next 4, next 5, next 6, next 7, next 8, next 9, next 10, next 11,
    next 12, next 13, next 14, next 15, by simp⟩

/-- A branch under the table of this hardware, with its predicate written out. -/
theorem branch_of_defaultTable {s : State} (htable : s.params.ccTable = defaultCcTable) (t : Byte)
    (cc : Fin 16) {taken : Bool} (h : predicateHolds defaultCcTable[cc] s = taken) :
    branch cc t s = .next { s with pc := if taken then zext16 t else s.pc, status := some .continue } := by
  rw [branch_eq_next, condHolds, htable, h]

/-- Settles O51: the predicates of R141 in their two spellings. -/
theorem branchesWithTheDefaultTable : Obligations.BranchesWithTheDefaultTable := by
  intro s t htable f
  have not_xor : ∀ x y : Bool, (!(x ^^ y)) = (x == y) := by decide
  have taken := fun cc p => branch_of_defaultTable htable t cc (taken := p)
  simp only [List.forall_mem_cons]
  exact ⟨taken 0 _ rfl, taken 1 _ rfl, taken 2 _ rfl, taken 3 _ (Bool.not_or _ _), taken 4 _ rfl,
    taken 5 _ rfl, taken 6 _ (not_xor _ _),
    taken 7 _ ((Bool.not_or _ _).trans (congrArg (· && _) (not_xor _ _))), taken 8 _ rfl, taken 9 _ rfl,
    taken 10 _ rfl, taken 11 _ rfl, taken 12 _ rfl, taken 13 _ rfl, taken 14 _ rfl, taken 15 _ rfl, by simp⟩

theorem exec_branchOfCc (cc : BitVec 4) (t : Byte) (s : State) :
    exec (branchOfCc cc t) s = branch cc.toFin t s := by
  obtain ⟨cc⟩ := cc
  fin_cases cc <;> rfl

/-- Settles O50: in range the step is the branch after both fetches, out of range the fetch's fault. -/
theorem branchStep : Obligations.BranchStep := by
  intro s hone hupper
  have hop : fieldOp s.opcode = 0x3 := fieldOp_eq_of_toNat hupper
  have hn : needsSecond s.opcode = true := needsSecond_branch hop
  refine ⟨fun hlt => ?_, fun hle => step_of_second_out_of_range hone hn hle⟩
  have hcc : (fieldCc s.opcode).toFin = Fin.ofNat 16 s.opcode.toNat := by
    rw [fieldCc_eq_ofNat]
    rfl
  calc step s = exec (decodeWords s.opcode s.secondWord) s.afterTwo :=
        step_of_fetches (.inr ⟨⟨hone, hlt⟩, hn, rfl, rfl⟩)
    _ = branch (Fin.ofNat 16 s.opcode.toNat) s.secondWord s.afterTwo := by
        rw [decodeWords_branch _ hop, exec_branchOfCc, hcc]
    _ = _ := branch_eq_next _ _ _

/-! ## JAL, JR and the one-word control instructions -/

/-- Settles O52: JAL's return address is `pc` cut to 8 bits. -/
theorem jumpAndLinkAndJumpRegister : Obligations.JumpAndLinkAndJumpRegister :=
  fun s _ => ⟨⟨s.pc.setWidth 8, BitVec.toNat_setWidth 8 s.pc, rfl⟩, rfl⟩

/-- Settles O54: each of the eight is one update and an end of the step. -/
theorem controlAndLatchInstructions : Obligations.ControlAndLatchInstructions :=
  fun s => ⟨fun x => exec_nop x s, fun x => exec_hlt x s, fun x => exec_hltHigh x s, fun _ => rfl,
    fun _ => rfl, fun _ => rfl, fun _ => rfl, fun x => exec_illegal x s⟩

theorem step_jal {s : State} (h : s.canFetchTwo) (hop : s.opcode = 0x0A) :
    step s = .next { s with
      acc := (s.pc + 2).setWidth 8, pc := zext16 s.secondWord, mar := s.pc + 1, ir := 0x0A
      status := some .continue } := by
  have hf : Fetches s (.jal s.secondWord) s.afterTwo := .inr ⟨h, by rw [hop]; rfl, by rw [hop]; rfl, rfl⟩
  have hexec : exec (.jal s.secondWord) s.afterTwo = .next { s with
      acc := (s.pc + 2).setWidth 8, pc := zext16 s.secondWord, mar := s.pc + 1, ir := s.opcode
      status := some .continue } := rfl
  rw [step_of_fetches hf, hexec, hop]

theorem step_jr {s : State} (h : s.canFetchOne) (hop : s.opcode = 0x0B) :
    step s = .next { s with pc := zext16 s.acc, mar := s.pc, ir := 0x0B, status := some .continue } := by
  have hf : Fetches s .jr s.afterOne := .inl ⟨h, by rw [hop]; rfl, by rw [hop]; rfl, rfl⟩
  have hexec : exec .jr s.afterOne = .next { s with
      pc := zext16 s.acc, mar := s.pc, ir := s.opcode, status := some .continue } := rfl
  rw [step_of_fetches hf, hexec, hop]

/-- Below 0x100 an address goes through the 8-bit link register unchanged (R173, decision D16). -/
theorem zext16_setWidth_of_lt {p : Addr16} (h : p.toNat < 0x100) :
    (p.setWidth 8).toNat = p.toNat ∧ zext16 (p.setWidth 8) = p := by
  have hlow : (p.setWidth 8).toNat = p.toNat := by
    rw [BitVec.toNat_setWidth]
    exact Nat.mod_eq_of_lt h
  exact ⟨hlow, BitVec.eq_of_toNat_eq ((zext16_toNat _).trans hlow)⟩

/-- Settles O53: the return address fits the link register, and JR finds it there. -/
theorem jalThenJrReturns : Obligations.JalThenJrReturns := by
  intro s hl hrun hpc hJal hJr
  have hsize := (Params.memSize_le hl).1
  have htwo : s.canFetchTwo := ⟨⟨hrun, by omega⟩, by omega⟩
  have hret : (s.pc + 2).toNat = s.pc.toNat + 2 := by
    rw [BitVec.toNat_add]
    exact Nat.mod_eq_of_lt (by simp; omega)
  obtain ⟨hacc, hback⟩ := zext16_setWidth_of_lt (p := s.pc + 2) (by omega)
  have htarget := zext16_toNat s.secondWord
  refine ⟨_, _, step_jal htwo hJal, rfl, step_jr ⟨hrun, ?_⟩ ?_, hback, hacc.trans hret, rfl⟩
  · have hlt := s.secondWord.isLt
    show (zext16 s.secondWord).toNat < s.params.memSize
    omega
  · rw [← hJr, ← htarget]
    rfl

/-! ## A store seen by the next fetch (R45) -/

/-- After a step that fetched, `ir` holds the first word. -/
theorem ir_of_step {s t : State} (h : step s = .next t) (hone : s.canFetchOne) : t.ir = s.opcode := by
  obtain ⟨hrun, -⟩ | ⟨-, hpc, -⟩ | ⟨-, -, -, rfl⟩ | ⟨i, s', hf, he⟩ := step_next_cases h
  · cases hrun.symm.trans hone.1
  · exact absurd hone.2 (Nat.not_lt.mpr hpc)
  · rfl
  · obtain ⟨-, hir, -⟩ := noInstructionWritesMarIrOrParams i s' t he
    exact hir.trans (congrArg State.ir hf.frame :)

/-- Settles O58: the next opcode fetch reads the byte that was written. -/
theorem storedWordIsFetchedByTheNextStep : Obligations.StoredWordIsFetchedByTheNextStep := by
  intro s a b d m hwf htwo hnext hdec hm haddr
  obtain ⟨hn, hi⟩ := decode_two hdec
  have hea : effectiveAddress m d s.afterTwo = (s.pc + 2).toNat := by
    rw [← haddr]
    cases m <;> rfl
  have hread : readA a s.afterTwo = readA a s := by cases a <;> rfl
  have hstep : step s = .next
      (s.afterTwo.setMem (s.mem.write (s.pc + 2).toNat (readA a s))).done := by
    rw [step_of_fetches (.inr ⟨htwo, hn, hi, rfl⟩), exec_st_of_lt hm (hea ▸ hnext), hea, hread]
    rfl
  obtain ⟨u, hu⟩ := everyStepAnswersANextState
    (s.afterTwo.setMem (s.mem.write (s.pc + 2).toNat (readA a s))).done
  refine ⟨_, u, hstep, htwo.1.1, hu, ?_⟩
  exact (ir_of_step hu ⟨htwo.1.1, hnext⟩).trans (Memory.read_write_same hwf)

/-! ## The host's load (log entry 25) -/

theorem loadAddress_lt {s : State} (hl : s.params.legal = true) :
    loadAddress s + 1 < s.params.memSize ∧ loadAddress s < 2 ^ 16 := by
  have hsize := (Params.memSize_le hl).1
  have hpc := s.pc.isLt
  unfold loadAddress
  split <;> omega

/-- The two words stand where the next step of a running machine fetches them. -/
theorem placeWords_spec (w0 w1 : Byte) {s : State} (hl : s.params.legal = true) (hwf : s.mem.wf = true) :
    (placeWords w0 w1 s).canFetchTwo ∧ (placeWords w0 w1 s).opcode = w0 ∧
      (placeWords w0 w1 s).secondWord = w1 := by
  obtain ⟨hlt, hwidth⟩ := loadAddress_lt hl
  have hpc : (placeWords w0 w1 s).pc.toNat = loadAddress s := by
    show (BitVec.ofNat 16 (loadAddress s)).toNat = _
    rw [BitVec.toNat_ofNat, Nat.mod_eq_of_lt hwidth]
  have hmem : (placeWords w0 w1 s).mem = (s.mem.write (loadAddress s) w0).write (loadAddress s + 1) w1 := rfl
  have hsize : (placeWords w0 w1 s).params.memSize = s.params.memSize := rfl
  refine ⟨⟨⟨rfl, ?_⟩, ?_⟩, ?_, ?_⟩
  · omega
  · omega
  · rw [State.opcode, hpc, hmem, Memory.read_write_other (by omega), Memory.read_write_same hwf]
  · rw [State.secondWord, hpc, hmem, Memory.read_write_same (Memory.wf_write hwf)]

/-- Settles O60: the decoder and the fetch unit read the same two words. -/
theorem loadedInstructionRunsNext : Obligations.LoadedInstructionRunsNext := by
  intro s nbits w i hl hwf hdec p
  obtain ⟨w0, w1, hwords⟩ : ∃ w0 w1, tableWords nbits w = (w0, w1) := ⟨_, _, rfl⟩
  have hp : p = placeWords w0 w1 s := by simp only [p, State.withFetchWord, hwords]
  obtain ⟨htwo, hop, hsecond⟩ := placeWords_spec w0 w1 hl hwf
  rw [← hp] at htwo hop hsecond
  simp only [decodeTableWord, hwords] at hdec
  cases hn : needsSecond w0
  case false =>
    rw [decode_one_word [w1] hn] at hdec
    cases hdec
    rw [hop, hn]
    exact step_of_fetches (.inl ⟨htwo.1, hop ▸ hn, by rw [hop], rfl⟩)
  case true =>
    rw [decode_two_words w1 [] hn] at hdec
    cases hdec
    rw [hop, hn]
    exact step_of_fetches (.inr ⟨htwo, hop ▸ hn, by rw [hop, hsecond], rfl⟩)

end Sys2Proof.Machine

/-! PROOFS. The ALU instructions in closed form, and the branches after CMP (R100 to R113, R141). -/

namespace Sys2Proof.Machine

/-! ## The flag engine on two operands -/

section
variable (x v : Byte)

/-- The negative and the zero flag of an addition are those of its result (R101). -/
theorem addFlags_nf_zf : ((addFlags x v).flags.nf = true ↔ 128 ≤ (addFlags x v).result.toNat) ∧
    ((addFlags x v).flags.zf = true ↔ (addFlags x v).result.toNat = 0) := by
  obtain ⟨hr, -, -, hnf, hzf⟩ := addFlags_spec x v
  rw [hr, hnf, hzf, decide_eq_true_iff, decide_eq_true_iff]
  exact ⟨Iff.rfl, Iff.rfl⟩

/-- `Neg8` negates, but for 0x80, which it keeps (R102). -/
theorem neg8_toInt : (neg8 v).toInt = if v = 0x80 then -128 else -v.toInt := by
  revert v; decide

/-- R111 item 2: the carry of a subtraction, with the corner `v = 0`. -/
theorem sub_cf_iff : (addFlags x (neg8 v)).flags.cf = true ↔ v.toNat ≤ x.toNat ∧ v ≠ 0 := by
  obtain ⟨-, hcf, -⟩ := addFlags_spec x (neg8 v)
  have hx := x.isLt
  have hv := v.isLt
  have hzero : v ≠ 0 ↔ v.toNat ≠ 0 := not_congr BitVec.toNat_eq
  rw [hcf, neg8_toNat, hzero]
  omega

/-- R111 item 3: the overflow of a subtraction, with the corner `v = 0x80`. -/
theorem sub_vf_iff : (addFlags x (neg8 v)).flags.vf = true ↔
    if v = 0x80 then 128 ≤ x.toNat else ¬ inSignedRange (x.toInt - v.toInt) := by
  obtain ⟨-, -, hvf, -⟩ := addFlags_spec x (neg8 v)
  rw [hvf, neg8_toInt]
  split
  case isTrue =>
    have hx := x.isLt
    simp only [inSignedRange, BitVec.toInt_eq_toNat_cond]
    split <;> omega
  case isFalse => rw [← Int.sub_eq_add_neg]

theorem sub_result_toNat : (addFlags x (neg8 v)).result.toNat = (x.toNat + 256 - v.toNat) % 256 := by
  obtain ⟨hr, -⟩ := addFlags_spec x (neg8 v)
  have hv := v.isLt
  rw [hr, BitVec.toNat_add, neg8_toNat]
  omega

/-- The fold of the carry as a number (R112). -/
theorem foldCarry_eq_ofNat (c : Bool) : foldCarry v c = BitVec.ofNat 8 (v.toNat + if c then 1 else 0) := by
  apply BitVec.eq_of_toNat_eq
  rw [foldCarry_toNat, BitVec.toNat_ofNat]
  cases c <;> rfl

end

/-! ## The arithmetic instructions -/

section
variable (f : Byte → Byte → Flags → AluOut) (a : RegSel) {b : OperandB} {s : State} {v : Byte}

theorem aluWrite_eq_next (h : readB b s = .ok v) : aluWrite f a b s = .next
    { writeA a (f (readA a s) v s.flags).result s with
      flags := (f (readA a s) v s.flags).flags, status := some .continue } := by
  rw [aluWrite_of_ok f a h]
  cases a <;> rfl

theorem aluCompare_eq_next (h : readB b s = .ok v) : aluCompare f a b s = .next
    { s with flags := (f (readA a s) v s.flags).flags, status := some .continue } :=
  aluCompare_of_ok f a h

end

/-- Settles O34: `AddFlags` in closed form. -/
theorem addResultAndFlags : Obligations.AddResultAndFlags := by
  intro a b s v h
  obtain ⟨hr, hcf, hvf, -⟩ := addFlags_spec (readA a s) v
  exact ⟨_, _, aluWrite_eq_next addOut a h, by rw [addOut, hr, BitVec.toNat_add], hcf, hvf,
    addFlags_nf_zf _ _⟩

/-- Settles O35: an addition of the folded operand. -/
theorem addWithCarryResultAndFlags : Obligations.AddWithCarryResultAndFlags := by
  intro a b s v h c bc
  have hbc : foldCarry v s.flags.cf = bc := foldCarry_eq_ofNat v s.flags.cf
  obtain ⟨hr, hcf, hvf, -⟩ := addFlags_spec (readA a s) bc
  have hexec := aluWrite_eq_next adcOut a h
  simp only [adcOut, hbc] at hexec
  refine ⟨_, _, hexec, ?_, hcf, hvf, addFlags_nf_zf _ _⟩
  rw [hr, BitVec.toNat_add, BitVec.toNat_ofNat]
  omega

/-- Settles O36: `AddFlags` on the negated operand. -/
theorem subtractResultAndFlags : Obligations.SubtractResultAndFlags := by
  intro a b s v h
  exact ⟨_, _, aluWrite_eq_next subOut a h, sub_result_toNat _ _, sub_cf_iff _ _, sub_vf_iff _ _,
    addFlags_nf_zf _ _⟩

/-- Settles O37: a subtraction of the folded operand. -/
theorem subtractWithCarryResultAndFlags : Obligations.SubtractWithCarryResultAndFlags := by
  intro a b s v h c bc
  have hbc : foldCarry v s.flags.cf = bc := foldCarry_eq_ofNat v s.flags.cf
  have hexec := aluWrite_eq_next sbcOut a h
  simp only [sbcOut, hbc] at hexec
  refine ⟨_, _, hexec, ?_, sub_cf_iff _ _, sub_vf_iff _ _, addFlags_nf_zf _ _⟩
  have hv := v.isLt
  have hc : c ≤ 1 := by simp only [c]; split <;> omega
  rw [sub_result_toNat, BitVec.toNat_ofNat]
  omega

/-- Settles O38: both run the same operation of the flag engine. -/
theorem compareWritesOnlyTheFlagsOfSubtract : Obligations.CompareWritesOnlyTheFlagsOfSubtract :=
  fun a _ _ _ h => ⟨_, _, aluWrite_eq_next subOut a h, aluCompare_eq_next subOut a h⟩

/-- Settles O39: the three share `logicOut`. -/
theorem logicResultsAndFlags : Obligations.LogicResultsAndFlags := by
  intro a b s v h
  have logic : ∀ (f : Byte → Byte → Flags → AluOut) (r : Byte), f (readA a s) v s.flags = logicOut r s.flags →
      aluWrite f a b s = .next { writeA a r s with
        flags := { cf := s.flags.cf, vf := false, nf := r.getLsbD 7, zf := decide (r.toNat = 0) }
        status := some .continue } := by
    intro f r hf
    rw [aluWrite_eq_next f a h, hf]
    simp only [logicOut, negBit, zeroBit_eq]
  simp only [List.forall_mem_cons]
  exact ⟨⟨_, logic andOut _ rfl, fun k _ => BitVec.getLsbD_and⟩,
    ⟨_, logic orOut _ rfl, fun k _ => BitVec.getLsbD_or⟩,
    ⟨_, logic eorOut _ rfl, fun k _ => BitVec.getLsbD_xor⟩, by simp⟩

/-- Settles O41: with the carry clear the fold is operand B itself. -/
theorem carryClearMakesAdcAddAndSbcSub : Obligations.CarryClearMakesAdcAddAndSbcSub := by
  intro a b s hcf
  have fold : ∀ v, foldCarry v s.flags.cf = v := fun v => by
    rw [hcf, foldCarry_eq_ofNat]
    simp
  have hadc : execAdc a b s = execAdd a b s := by
    simp only [execAdc, execAdd, aluWrite, adcOut, addOut, fold]
  have hsbc : execSbc a b s = execSub a b s := by
    simp only [execSbc, execSub, aluWrite, sbcOut, subOut, fold]
  exact ⟨hadc, hsbc⟩

/-- `Neg8` undoes an addition (R111 item 5). -/
theorem add_neg8_cancel (x d : Byte) : x + d + neg8 d = x := by
  apply BitVec.eq_of_toNat_eq
  have hx := x.isLt
  have hd := d.isLt
  rw [BitVec.toNat_add, BitVec.toNat_add, neg8_toNat]
  omega

/-- Settles O40: the subtraction undoes the addition in the register. -/
theorem addThenSubtractRestores : Obligations.AddThenSubtractRestores := by
  intro a c c' d s
  refine ⟨_, _, aluWrite_eq_next (b := .imm c d) addOut a rfl,
    aluWrite_eq_next (b := .imm c' d) subOut a rfl, ?_⟩
  cases a <;> simp only [readA, writeA, State.setAcc, State.setIx, addOut, subOut, addFlags, add_neg8_cancel]

/-! ## The branches after CMP -/

section
variable (x v : Byte)

theorem sub_zf_iff : (addFlags x (neg8 v)).flags.zf = true ↔ x = v := by
  obtain ⟨-, hzf⟩ := addFlags_nf_zf x (neg8 v)
  have hx := x.isLt
  have hv := v.isLt
  rw [hzf, sub_result_toNat, BitVec.toNat_eq]
  omega

/-- Overflow against negative is the sign of the true sum. -/
theorem addFlags_less_iff : ((addFlags x v).flags.vf ^^ (addFlags x v).flags.nf) = true ↔
    x.toInt + v.toInt < 0 := by
  obtain ⟨hr, -, hvf, -⟩ := addFlags_spec x v
  obtain ⟨hnf, -⟩ := addFlags_nf_zf x v
  have xor_iff : ∀ p q : Bool, (p ^^ q) = true ↔ ¬ (p = true ↔ q = true) := by decide
  have hx := x.isLt
  have hv := v.isLt
  rw [xor_iff, hvf, hnf, hr, BitVec.toNat_add]
  simp only [inSignedRange, BitVec.toInt_eq_toNat_cond]
  split <;> split <;> omega

/-- The signed order after a subtraction, but for `v = 0x80` (R111, R148). -/
theorem sub_less_iff : ((addFlags x (neg8 v)).flags.vf ^^ (addFlags x (neg8 v)).flags.nf) = true ↔
    v = 0x80 ∨ x.toInt < v.toInt := by
  rw [addFlags_less_iff, neg8_toInt]
  have hx := x.toInt_lt
  split
  case isTrue h =>
    have hsum : x.toInt + -128 < 0 := by omega
    simp only [h, hsum, true_or]
  case isFalse h =>
    simp only [h, false_or]
    omega

theorem sub_lessOrEqual_iff : ((addFlags x (neg8 v)).flags.vf ^^ (addFlags x (neg8 v)).flags.nf ||
    (addFlags x (neg8 v)).flags.zf) = true ↔ v = 0x80 ∨ x.toInt ≤ v.toInt := by
  have heq : x = v ↔ x.toInt = v.toInt := BitVec.toInt_inj.symm
  rw [Bool.or_eq_true, sub_less_iff, sub_zf_iff, heq, or_assoc, ← le_iff_lt_or_eq]

end

theorem not_eq_true_iff {flag : Bool} {p : Prop} (h : flag = true ↔ p) : (!flag) = true ↔ ¬ p := by
  rw [Bool.not_eq_true', ← Bool.not_eq_true, h]

/-- A branch is taken exactly where `p` holds, if its predicate says `p`. -/
theorem branch_goes {t : State} {k : Byte} {p : Prop} (cc : Fin 16) (htable : t.params.ccTable = defaultCcTable)
    (hstatus : t.status = some .continue) (hp : predicateHolds defaultCcTable[cc] t = true ↔ p) :
    (p → branch cc k t = .next { t with pc := zext16 k }) ∧ (¬ p → branch cc k t = .next t) := by
  rw [branch_of_defaultTable htable k cc rfl, ← hstatus]
  constructor
  · intro h
    rw [if_pos (hp.mpr h)]
  · intro h
    rw [if_neg (mt hp.mp h)]

/-- Settles O42: the predicates on the flags of the subtraction. -/
theorem branchesAfterCompareOrderTheOperands : Obligations.BranchesAfterCompareOrderTheOperands := by
  intro a b s t v k htable hb h x _
  obtain rfl := Host.Outcome.next.inj ((aluCompare_eq_next subOut a hb).symm.trans h)
  have goes := fun cc p => branch_goes (t := { s with
    flags := (addFlags x (neg8 v)).flags, status := some .continue }) (k := k) (p := p) cc htable rfl
  have hzf := sub_zf_iff x v
  have hcf := sub_cf_iff x v
  have hless := sub_less_iff x v
  have hle := sub_lessOrEqual_iff x v
  refine ⟨goes 9 _ hzf, goes 1 _ (not_eq_true_iff hzf), fun hv => ?_, fun hv => ?_, fun hv => ?_, fun hv => ?_⟩
  · replace hcf := hcf.trans (and_iff_left hv)
    exact ⟨goes 13 _ hcf, goes 5 _ ((not_eq_true_iff hcf).trans Nat.not_le)⟩
  · replace hcf := hcf.trans (iff_of_false (fun ⟨_, hne⟩ => hne hv) id)
    exact ⟨goes 13 _ hcf, goes 5 _ ((not_eq_true_iff hcf).trans not_false_iff)⟩
  · replace hless := hless.trans (or_iff_right hv)
    replace hle := hle.trans (or_iff_right hv)
    exact ⟨goes 14 _ hless, goes 15 _ hle, goes 6 _ ((not_eq_true_iff hless).trans Int.not_lt),
      goes 7 _ ((not_eq_true_iff hle).trans Int.not_le)⟩
  · replace hless := hless.trans (iff_true_intro (.inl hv))
    replace hle := hle.trans (iff_true_intro (.inl hv))
    exact ⟨goes 14 _ hless, goes 15 _ hle, goes 6 _ ((not_eq_true_iff hless).trans not_true),
      goes 7 _ ((not_eq_true_iff hle).trans not_true)⟩

end Sys2Proof.Machine

/-! PROOFS. The shifts and rotates in closed form, and what repeating them leaves (R120 to R131). -/

namespace Sys2Proof.Machine

/-! ## One place -/

/-- What a shift or rotate leaves (R120). -/
theorem shiftA_eq_next (f : Byte → AluOut) (a : RegSel) (s : State) : shiftA f a s = .next
    { writeA a (f (readA a s)).result s with
      flags := (f (readA a s)).flags, status := some .continue } := by
  cases a <;> rfl

section
variable (signed fill : Bool) (v : Byte)

theorem moveRight_flags : (moveRight fill v).flags =
    { cf := decide (v.toNat % 2 = 1), vf := false
      nf := decide (128 ≤ (moveRight fill v).result.toNat)
      zf := decide ((moveRight fill v).result.toNat = 0) } := by
  obtain ⟨-, hcf, -⟩ := moveRight_spec fill v
  rw [← hcf, ← negBit_eq, ← zeroBit_eq]
  rfl

theorem moveLeft_flags : (moveLeft signed fill v).flags =
    { cf := decide (128 ≤ v.toNat), vf := (moveLeft signed fill v).flags.vf
      nf := decide (128 ≤ (moveLeft signed fill v).result.toNat)
      zf := decide ((moveLeft signed fill v).result.toNat = 0) } := by
  obtain ⟨-, hcf, -⟩ := moveLeft_spec signed fill v
  rw [← hcf, ← negBit_eq, ← zeroBit_eq]
  rfl

/-- Overflow of a signed move to the left: the double does not fit (R122). -/
theorem moveLeft_vf_iff : (moveLeft true fill v).flags.vf = true ↔ ¬ inSignedRange (2 * v.toInt) := by
  obtain ⟨-, -, hvf⟩ := moveLeft_spec true fill v
  have xor_iff : ∀ p q : Bool, (p ^^ q) = true ↔ ¬ (p = true ↔ q = true) := by decide
  have hv := v.isLt
  rw [hvf, Bool.true_and, xor_iff, decide_eq_true_iff, decide_eq_true_iff]
  simp only [inSignedRange, BitVec.toInt_eq_toNat_cond]
  split <;> omega

theorem bit_zero_toNat : (v.getLsbD 0).toNat = v.toNat % 2 := by
  revert v; decide

theorem bit_seven_toNat : (v.getLsbD 7).toNat = v.toNat / 128 := by
  revert v; decide

/-- A rotate to the left takes bit `k` from the place below, around the word. -/
theorem getLsbD_moveLeft_rotate {k : Nat} (hk : k < 8) :
    (moveLeft signed (v.getLsbD 7) v).result.getLsbD k = v.getLsbD ((k + 7) % 8) := by
  rw [moveLeft, BitVec.getLsbD_append, BitVec.getLsbD_extractLsb']
  by_cases h0 : k < 1
  · obtain rfl : k = 0 := by omega
    simp
  · have hmod : (k + 7) % 8 = k - 1 := by omega
    simp [h0, hmod]
    omega

/-- A move to the right takes bit `k` from the place above, and bit 7 from `fill`. -/
theorem getLsbD_moveRight {k : Nat} (hk : k < 8) :
    (moveRight fill v).result.getLsbD k = if k = 7 then fill else v.getLsbD (k + 1) := by
  rw [moveRight, BitVec.getLsbD_append, BitVec.getLsbD_extractLsb']
  by_cases h7 : k = 7
  · subst h7
    simp
  · have hlt : k < 7 := by omega
    simp [h7, hlt, Nat.add_comm]

/-- SRA halves the signed value (R121). -/
theorem sra_toInt : (sraOut v).result.toInt = v.toInt / 2 := by
  obtain ⟨hr, -⟩ := moveRight_spec (v.getLsbD 7) v
  have hv := v.isLt
  rw [bit_seven_toNat] at hr
  rw [sraOut, BitVec.toInt_eq_toNat_cond, BitVec.toInt_eq_toNat_cond, hr]
  split <;> split <;> omega

end

/-! ## The instructions -/

section
variable {f : Byte → AluOut} {a : RegSel} {s : State} {fill : Bool}

theorem shiftA_moveRight (hf : f (readA a s) = moveRight fill (readA a s)) : shiftA f a s = .next
    { writeA a (moveRight fill (readA a s)).result s with
      flags :=
        { cf := decide ((readA a s).toNat % 2 = 1), vf := false
          nf := decide (128 ≤ (moveRight fill (readA a s)).result.toNat)
          zf := decide ((moveRight fill (readA a s)).result.toNat = 0) }
      status := some .continue } := by
  rw [shiftA_eq_next, hf, moveRight_flags]

theorem shiftA_moveLeft {signed : Bool} (hf : f (readA a s) = moveLeft signed fill (readA a s)) :
    shiftA f a s = .next
    { writeA a (moveLeft signed fill (readA a s)).result s with
      flags :=
        { cf := decide (128 ≤ (readA a s).toNat), vf := (moveLeft signed fill (readA a s)).flags.vf
          nf := decide (128 ≤ (moveLeft signed fill (readA a s)).result.toNat)
          zf := decide ((moveLeft signed fill (readA a s)).result.toNat = 0) }
      status := some .continue } := by
  rw [shiftA_eq_next, hf, moveLeft_flags]

end

/-- Settles O44: moves by one place, with the sign or 0 put in. -/
theorem shiftResultsAndFlags : Obligations.ShiftResultsAndFlags := by
  intro a s v _
  obtain ⟨hsrl, -⟩ := moveRight_spec false v
  obtain ⟨hsla, -⟩ := moveLeft_spec true false v
  obtain ⟨hsll, -⟩ := moveLeft_spec false false v
  exact ⟨⟨_, shiftA_moveRight (f := sraOut) rfl, sra_toInt v⟩,
    ⟨_, _, shiftA_moveLeft (f := slaOut) rfl, hsla, moveLeft_vf_iff false v⟩,
    ⟨_, shiftA_moveRight (f := srlOut) rfl, hsrl⟩,
    ⟨_, shiftA_moveLeft (f := sllOut) rfl, hsll⟩⟩

/-- Settles O45: the two differ in the overflow only. -/
theorem rotateLeftResultsAndFlags : Obligations.RotateLeftResultsAndFlags := by
  intro a s v _
  obtain ⟨hr, -⟩ := moveLeft_spec true (v.getLsbD 7) v
  rw [bit_seven_toNat] at hr
  exact ⟨_, _, shiftA_moveLeft (f := rlaOut) rfl, shiftA_moveLeft (f := rllOut) rfl, hr,
    moveLeft_vf_iff _ v⟩

/-- Settles O46: RRA and RRL are one operation, and `ROR_FILL` says what enters bit 7. -/
theorem rotateRightResultsAndFlags : Obligations.RotateRightResultsAndFlags := by
  intro a s v _
  have hrotate := shiftA_moveRight (f := rotateRightOut s.params.rorFill s.flags.cf) (a := a) (s := s)
    (fill := rorFillBit s.params.rorFill s.flags.cf v) rfl
  obtain ⟨hr, -⟩ := moveRight_spec (rorFillBit s.params.rorFill s.flags.cf v) v
  refine ⟨_, hrotate, hrotate, fun hfill => ?_, fun hfill => ?_⟩
  · rw [hr, hfill, rorFillBit, bit_zero_toNat]
  · rw [hr, hfill, rorFillBit]

/-! ## Many places (R125, R131) -/

/-- Repeating a shift or rotate: what holds of operand A and the carry from place to place (`Holds`) holds after the
last, and nothing but operand A, the flags and the status differs. -/
theorem execTimes_shift {i : Instr} {a : RegSel} {rorFill : RorFill} {f : Bool → Byte → AluOut}
    (hi : ∀ s, s.params.rorFill = rorFill → exec i s = shiftA (f s.flags.cf) a s)
    {Holds : Nat → Byte → Bool → Prop}
    (hstep : ∀ n v c, Holds n v c → Holds (n + 1) (f c v).result (f c v).flags.cf)
    (n : Nat) {k : Nat} {s : State} (hs : s.params.rorFill = rorFill)
    (h : Holds k (readA a s) s.flags.cf) :
    ∃ t, execTimes i (n + 1) s = .next t ∧
      t = { writeA a (readA a t) s with flags := t.flags, status := some .continue } ∧
      Holds (k + (n + 1)) (readA a t) t.flags.cf := by
  induction n generalizing k s with
  | zero =>
    have hexec := (hi s hs).trans (shiftA_eq_next _ a s)
    refine ⟨_, by rw [execTimes, hexec]; rfl, ?_, ?_⟩
    · cases a <;> rfl
    · cases a <;> exact hstep k _ _ h
  | succ n ih =>
    have hexec := (hi s hs).trans (shiftA_eq_next _ a s)
    obtain ⟨t, ht, hframe, hholds⟩ := ih (k := k + 1)
      (s := { writeA a (f s.flags.cf (readA a s)).result s with
        flags := (f s.flags.cf (readA a s)).flags, status := some .continue })
      (by cases a <;> exact hs) (by cases a <;> exact hstep k _ _ h)
    refine ⟨t, by rw [execTimes, hexec]; exact ht, hframe.trans (by cases a <;> rfl), ?_⟩
    rwa [Nat.add_right_comm, Nat.add_assoc] at hholds

/-- What `i`, done `n` times over on `s`, comes to. -/
def EndsWith (i : Instr) (n : Nat) (a : RegSel) (s : State) (r : Byte) : Prop :=
  ∃ t, execTimes i n s = .next t ∧ t = { writeA a r s with flags := t.flags, status := some .continue }

/-- Eight places of an operation that reads neither `ROR_FILL` nor the carry. -/
theorem endsWith_eight {i : Instr} {a : RegSel} {f : Byte → AluOut} {s : State} {r : Byte}
    (hi : ∀ s, exec i s = shiftA f a s) {Holds : Nat → Byte → Prop}
    (hstep : ∀ n v, Holds n v → Holds (n + 1) (f v).result) (h : Holds 0 (readA a s))
    (hend : ∀ v, Holds 8 v → v = r) : EndsWith i 8 a s r := by
  obtain ⟨t, ht, hframe, hholds⟩ := execTimes_shift (f := fun _ => f) (rorFill := s.params.rorFill)
    (Holds := fun n v _ => Holds n v) (fun s _ => hi s) (fun n v _ => hstep n v) 7 rfl h
  rw [Nat.zero_add] at hholds
  rw [hend _ hholds] at hframe
  exact ⟨t, ht, hframe⟩

/-! ### Shifts -/

/-- SLA and SLL: `n` places multiply by `2 ^ n` modulo 256 (R122, R124). -/
theorem endsWith_shiftLeft {i : Instr} {a : RegSel} {signed : Bool} (s : State)
    (hi : ∀ s, exec i s = shiftA (moveLeft signed false) a s) : EndsWith i 8 a s 0 := by
  refine endsWith_eight (Holds := fun n v => v.toNat = 2 ^ n * (readA a s).toNat % 256) hi
    (fun n v h => ?_) ?_ fun v h => ?_
  · obtain ⟨hr, -⟩ := moveLeft_spec signed false v
    rw [hr, h, pow_succ', mul_assoc]
    simp
  · have := (readA a s).isLt
    omega
  · exact BitVec.eq_of_toNat_eq (h.trans (by simp [Nat.mul_mod_right]))

/-- SRL: `n` places divide by `2 ^ n` (R123). -/
theorem endsWith_srl (a : RegSel) (s : State) : EndsWith (.srl a) 8 a s 0 := by
  refine endsWith_eight (f := srlOut) (Holds := fun n v => v.toNat = (readA a s).toNat / 2 ^ n)
    (fun _ => rfl) (fun n v h => ?_) (by simp) fun v h => ?_
  · obtain ⟨hr, -⟩ := moveRight_spec false v
    rw [srlOut, hr, h, Nat.div_div_eq_div_mul, ← pow_succ]
    rfl
  · exact BitVec.eq_of_toNat_eq (h.trans (Nat.div_eq_of_lt (readA a s).isLt))

/-- SRA: `n` places divide the signed value by `2 ^ n`, rounding down (R121). -/
theorem endsWith_sra (a : RegSel) (s : State) :
    EndsWith (.sra a) 8 a s (if 128 ≤ (readA a s).toNat then 0xFF else 0) := by
  refine endsWith_eight (f := sraOut) (Holds := fun n v => v.toInt = (readA a s).toInt / 2 ^ n)
    (fun _ => rfl) (fun n v h => ?_) (by simp) fun v h => ?_
  · rw [sra_toInt, h, Int.ediv_ediv_of_nonneg (by positivity), ← pow_succ]
  · have hlt := (readA a s).isLt
    apply BitVec.eq_of_toInt_eq
    rw [h, BitVec.toInt_eq_toNat_cond]
    split_ifs <;> simp <;> omega

/-! ### Rotates -/

/-- RLA and RLL: after `n` places bit `k` comes from `n` places below, around the word (R126, R128). -/
theorem endsWith_rotateLeft {i : Instr} {a : RegSel} {signed : Bool} (s : State)
    (hi : ∀ s, exec i s = shiftA (fun v => moveLeft signed (v.getLsbD 7) v) a s) :
    EndsWith i 8 a s (readA a s) := by
  refine endsWith_eight
    (Holds := fun n v => ∀ k, k < 8 → v.getLsbD k = (readA a s).getLsbD ((k + 7 * n) % 8)) hi
    (fun n v h k hk => ?_) (fun k hk => ?_) fun v h => BitVec.eq_of_getLsbD_eq fun k hk => ?_
  · rw [getLsbD_moveLeft_rotate signed v hk, h _ (Nat.mod_lt _ (by decide))]
    congr 1
    omega
  · rw [Nat.mul_zero, Nat.add_zero, Nat.mod_eq_of_lt hk]
  · rw [h k hk]
    congr 1
    omega

/-- `v` is `v0` rotated to the right by `n` places. -/
def RotatedRight (v0 : Byte) (n : Nat) (v : Byte) : Prop :=
  ∀ k, k < 8 → v.getLsbD k = v0.getLsbD ((k + n) % 8)

theorem RotatedRight.succ {v0 v : Byte} {n : Nat} {c : Bool} (h : RotatedRight v0 n v) :
    RotatedRight v0 (n + 1) (rotateRightOut .bit0 c v).result := by
  intro k hk
  rw [rotateRightOut, rorFillBit, getLsbD_moveRight _ _ hk]
  by_cases h7 : k = 7
  · rw [if_pos h7, h 0 (by decide)]
    congr 1
    omega
  · rw [if_neg h7, h (k + 1) (by omega)]
    congr 1
    omega

theorem RotatedRight.zero (v0 : Byte) : RotatedRight v0 0 v0 := fun k hk => by
  rw [Nat.add_zero, Nat.mod_eq_of_lt hk]

theorem RotatedRight.eq_of_eight {v0 v : Byte} (h : RotatedRight v0 8 v) : v = v0 :=
  BitVec.eq_of_getLsbD_eq fun k hk => by rw [h k hk, Nat.add_mod_right, Nat.mod_eq_of_lt hk]

/-- RRA and RRL with the bit shifted out (R129). -/
theorem endsWith_rotateRight {i : Instr} {a : RegSel} {s : State} (hfill : s.params.rorFill = .bit0)
    (hi : ∀ s, exec i s = shiftA (rotateRightOut s.params.rorFill s.flags.cf) a s) :
    EndsWith i 8 a s (readA a s) := by
  obtain ⟨t, ht, hframe, hholds⟩ := execTimes_shift (f := rotateRightOut .bit0) (fun s hs => hs ▸ hi s)
    (Holds := fun n v _ => RotatedRight (readA a s) n v) (fun _ _ _ h => h.succ) 7 hfill (RotatedRight.zero _)
  exact ⟨t, ht, hholds.eq_of_eight ▸ hframe⟩

/-- Settles O47, by what each operation does in `n` places. -/
theorem eightShiftsOrRotates : Obligations.EightShiftsOrRotates := by
  intro a s _
  exact ⟨fun hfill => ⟨endsWith_rotateRight hfill fun _ => rfl, endsWith_rotateRight hfill fun _ => rfl⟩,
    endsWith_rotateLeft (signed := true) s fun _ => rfl, endsWith_rotateLeft (signed := false) s fun _ => rfl,
    endsWith_srl a s, endsWith_shiftLeft (signed := true) s fun _ => rfl,
    endsWith_shiftLeft (signed := false) s fun _ => rfl, endsWith_sra a s⟩

/-! ### Rotates through the carry -/

/-- The nine bits that RRA and RRL rotate with `ROR_FILL = old_cf`: those of the word, and the carry as bit 8. -/
def carryBits (v : Byte) (c : Bool) (k : Nat) : Bool := if k = 8 then c else v.getLsbD k

/-- One place: bit `k` comes from the place above, around the nine bits. -/
theorem carryBits_rotateRight (v : Byte) (c : Bool) {k : Nat} (hk : k < 9) :
    carryBits (rotateRightOut .oldCf c v).result (rotateRightOut .oldCf c v).flags.cf k =
      carryBits v c ((k + 1) % 9) := by
  by_cases h8 : k = 8
  · subst h8
    rfl
  · have hmod : (k + 1) % 9 = k + 1 := Nat.mod_eq_of_lt (by omega)
    rw [carryBits, if_neg h8, rotateRightOut, rorFillBit, getLsbD_moveRight _ _ (by omega), hmod, carryBits]
    by_cases h7 : k = 7 <;> simp [h7]

/-- The nine bits determine the word and the carry. -/
theorem eq_of_carryBits {v v' : Byte} {c c' : Bool} (h : ∀ k, k < 9 → carryBits v c k = carryBits v' c' k) :
    v = v' ∧ c = c' := by
  refine ⟨BitVec.eq_of_getLsbD_eq fun k hk => ?_, h 8 (by decide)⟩
  have hbit := h k (by omega)
  rwa [carryBits, carryBits, if_neg (by omega), if_neg (by omega)] at hbit

/-- The nine bits of `v` and `c` are those of `v0` and `c0` rotated to the right by `n` places. -/
def RotatedThroughCarry (v0 : Byte) (c0 : Bool) (n : Nat) (v : Byte) (c : Bool) : Prop :=
  ∀ k, k < 9 → carryBits v c k = carryBits v0 c0 ((k + n) % 9)

theorem RotatedThroughCarry.succ {v0 v : Byte} {c0 c : Bool} {n : Nat} (h : RotatedThroughCarry v0 c0 n v c) :
    RotatedThroughCarry v0 c0 (n + 1) (rotateRightOut .oldCf c v).result
      (rotateRightOut .oldCf c v).flags.cf := by
  intro k hk
  rw [carryBits_rotateRight v c hk, h _ (Nat.mod_lt _ (by decide))]
  congr 1
  omega

theorem RotatedThroughCarry.zero (v0 : Byte) (c0 : Bool) : RotatedThroughCarry v0 c0 0 v0 c0 := fun k hk => by
  rw [Nat.add_zero, Nat.mod_eq_of_lt hk]

theorem RotatedThroughCarry.eq_of_nine {v0 v : Byte} {c0 c : Bool} (h : RotatedThroughCarry v0 c0 9 v c) :
    v = v0 ∧ c = c0 :=
  eq_of_carryBits fun k hk => by rw [h k hk, Nat.add_mod_right, Nat.mod_eq_of_lt hk]

theorem writeA_readA (a : RegSel) (s : State) : writeA a (readA a s) s = s := by
  cases a <;> rfl

/-- Nine places bring each of the nine bits back (R125). -/
theorem nine_rotates {i : Instr} {a : RegSel} {s : State} (hfill : s.params.rorFill = .oldCf)
    (hi : ∀ s, exec i s = shiftA (rotateRightOut s.params.rorFill s.flags.cf) a s) :
    ∃ t, execTimes i 9 s = .next t ∧ t.flags.cf = s.flags.cf ∧
      t = { s with flags := t.flags, status := some .continue } := by
  obtain ⟨t, ht, hframe, hholds⟩ := execTimes_shift (f := rotateRightOut .oldCf) (fun s hs => hs ▸ hi s)
    (Holds := RotatedThroughCarry (readA a s) s.flags.cf) (fun _ _ _ h => h.succ) 8 hfill
    (RotatedThroughCarry.zero _ _)
  obtain ⟨hr, hcf⟩ := hholds.eq_of_nine
  rw [hr, writeA_readA] at hframe
  exact ⟨t, ht, hcf, hframe⟩

/-- Settles O48: nine places are one turn of the nine bits. -/
theorem nineRotatesThroughCarryRestore : Obligations.NineRotatesThroughCarryRestore := by
  intro a s hfill
  simp only [List.forall_mem_cons]
  exact ⟨nine_rotates hfill fun _ => rfl, nine_rotates hfill fun _ => rfl, by simp⟩

end Sys2Proof.Machine
